-- ==== Sys2Proof/Word.lean ====
section
/-! DEFINITION. The word types of the block and nothing else: a segment pattern, a digit position, a decimal
digit and a command word (spec/00_scope.md R9, R10). -/

namespace Sys2Proof

/-- `PATW` = 8: a segment pattern, a digit-store byte, a strobe byte, the transmitter's shift byte (R9). -/
abbrev Byte := BitVec 8

/-- A digit position, 0 (units) .. 3 (thousands): `NPOS` = 4 (R9, R15).
There is no position 4 or above (R44), so there is no such value. -/
abbrev Pos := Fin 4

/-- A decimal digit 0..9, an address of the encoder ROM: `NDIG` = 10 (R9, R38).
The ROM has no value at 10 and above (R71), so there is no such address. -/
abbrev Digit := Fin 10

/-- `CWW` = 20: a command word (R58). -/
abbrev CommandWord := BitVec 20

end Sys2Proof
end

