-- ==== Sys2Proof/Config.lean ====
section
/-! DEFINITION. What is fixed for one block and never changes: the constants the spec gives, and, as
constants with no body, what the spec leaves open (spec/00_scope.md R9; spec/93_implementation_defined.md U9). -/

namespace Sys2Proof.Config

/-- `BLANK`, the blank sentinel: "all segments off" (R9). It is no entry of the ROM (R69). -/
def blank : Byte := 0xFF#8

/-- `ZERO`, the literal zero pattern, which the suppression logic tests (R9). -/
def zero : Byte := 0xC0#8

/-- `WORD_MAX`, the largest legal operand of WRITE_WORD (R9). -/
def wordMax : Nat := 9999

/-- `DATA_PIN`, an opaque identifier given to the constructor (R9, R33).
DESIGN CHOICE (log 11, safe): an identifier is some natural number, and nothing says which. -/
opaque dataPin : Nat

/-- `SHCLK_PIN` (R9, R33; log 11). -/
opaque shclkPin : Nat

/-- `LATCH_PIN` (R9, R33; log 11). -/
opaque latchPin : Nat

/-- FREE VALUE: the eight bits a shift byte holds while its value is X (R25, R27; U9 "any value").
DESIGN CHOICE (log 3, safe): only a BUSY step whose `SR` nothing has loaded would look at it, and no run reaches one. -/
opaque shiftX : Byte

end Sys2Proof.Config
end

