-- ==== Sys2Proof/Machine/State.lean ====
section
/-! DEFINITION. The state of the block (spec/10_state.md R14), plain data, and the state after reset (R36,
spec/70_reset_and_hazards.md R160). The encoder ROM is no state (R14): it is `enc` in Machine/Operands.lean. -/

namespace Sys2Proof.Machine

/-- `DS`: the digit register file, four 8-bit registers (R15). -/
structure DigitStore where
  /-- `DS[0]`, units. -/
  d0 : Byte
  /-- `DS[1]`, tens. -/
  d1 : Byte
  /-- `DS[2]`, hundreds. -/
  d2 : Byte
  /-- `DS[3]`, thousands. -/
  d3 : Byte
  deriving DecidableEq, Repr

/-- `SR`: a byte, or X where nothing has written it since reset (R14, R25). X is the spec's own value. -/
inductive ShiftByte where
  | byte (b : Byte)
  | x
  deriving DecidableEq, Repr

/-- The level of an output line: 0, 1, or X where nothing has driven it since reset (R14, R27). -/
inductive Level where
  | low
  | high
  | x
  deriving DecidableEq, Repr

/-- The three output lines (R27). -/
inductive Line where
  | data
  | shclk
  | latch
  deriving DecidableEq, Repr

/-- A pin event `(line, level)`: one write of a level to a line (R12, R30). `true` is 1. -/
structure PinEvent where
  line : Line
  level : Bool
  deriving DecidableEq, Repr

/-- The phases in which a byte is shifted out: SEG, the segment byte, and STB, the strobe byte (R21). -/
inductive BytePhase where
  | seg
  | stb
  deriving DecidableEq, Repr

/-- `sub` in the phases SEG and STB: the next pin event sets DATA (D), SHCLK low (L), SHCLK high (H) (R21). -/
inductive BitSub where
  | d
  | l
  | h
  deriving DecidableEq, Repr

/-- `sub` in the phase LAT: the next pin event is LATCH low (L) or high (H) (R21). -/
inductive LatchSub where
  | l
  | h
  deriving DecidableEq, Repr

/-- `SEQ`, the sequencer state (R21, R22): IDLE and exactly the 200 BUSY values. `shift p ph k sub` is
`BUSY(p, ph, k, sub)` with `ph` SEG or STB, `latch p sub` is `BUSY(p, LAT, 0, sub)`. -/
inductive SeqState where
  | idle
  | shift (p : Pos) (ph : BytePhase) (k : Fin 8) (sub : BitSub)
  | latch (p : Pos) (sub : LatchSub)
  deriving DecidableEq, Repr

/-- A decoded, fault-free command (R31): its operands are in their legal ranges by type. -/
inductive Command where
  | writeNibble (d : Digit) (p : Pos)
  | writeWord (n : Fin 10000)
  | clear
  | showZerosLeft
  | hideZerosLeft
  | update
  deriving DecidableEq, Repr

/-- `HST`, the host command in progress (R31): `run cmd i` with `i` the index of its next byte step. -/
inductive HostState where
  | idle
  | run (cmd : Command) (i : Fin 4)
  deriving DecidableEq, Repr

/-- The four error classes (spec/60_exceptions.md R132, R133, R135, R136). -/
inductive CommandFault where
  | invalidDigit
  | invalidPosition
  | valueOutOfRange
  | illegalCommand
  deriving DecidableEq, Repr

/-- The result code with which a command word ends (R134). -/
inductive ResultCode where
  | ok
  | raised (f : CommandFault)
  deriving DecidableEq, Repr

/-- The direction of a pin; the constructor makes the block's three pins outputs (R160 (2), R154). -/
inductive PinDirection where
  | input
  | output
  deriving DecidableEq, Repr

/-- One pin of the binding: its opaque identifier, and the direction it was configured to (R33, R160). -/
structure PinBinding where
  id : Nat
  direction : PinDirection
  deriving DecidableEq, Repr

/-- `CFG`, the pin binding of the three lines, written once at construction (R33, R160). -/
structure PinConfig where
  dataPin : PinBinding
  shclkPin : PinBinding
  latchPin : PinBinding
  deriving DecidableEq, Repr

/-- An order in time of four byte writes, one to each position: one of the 24 of spec/20_memory.md R46. -/
structure WriteOrder where
  first : Pos
  second : Pos
  third : Pos
  fourth : Pos
  everyPosition : [first, second, third, fourth].Nodup
  deriving DecidableEq, Repr

/-- The open parameters of the block that a run shows: `WORD_ORDER` and `CLEAR_ORDER` (R9; U14: a parameter over
which a claim is to quantify). Nothing changes them. -/
structure Params where
  wordOrder : WriteOrder
  clearOrder : WriteOrder
  deriving DecidableEq, Repr

/-- MODEL'S OWN (log 1, log 2): one move of the environment (spec/60_exceptions.md R158), in the order of time. -/
inductive Input where
  /-- HOST sends a command word, and no tick falls between the byte steps of its command: one step of the machine
  runs the whole command. -/
  | command (w : CommandWord)
  /-- HOST sends a command word whose byte steps (for UPDATE, pin events) are taken one a step, so that ticks may
  fall between them. -/
  | commandStepwise (w : CommandWord)
  /-- TICK: the external timer expires now. -/
  | tick
  /-- Nothing arrives during one step of the block. -/
  | pass
  deriving DecidableEq, Repr

/-- The whole state of the block (R14), with its pin binding (R33), its parameters, the result codes it has
returned and the moves its environment has still to make. -/
structure State where
  /-- `DS` (R15). -/
  ds : DigitStore
  /-- `SR` (R25). -/
  sr : ShiftByte
  /-- `SEQ` (R21). -/
  seq : SeqState
  /-- `HST` (R31). -/
  hst : HostState
  /-- The level of DATA (R27). -/
  data : Level
  /-- The level of SHCLK (R27). -/
  shclk : Level
  /-- The level of LATCH (R27). -/
  latch : Level
  /-- `TRACE`: all pin events since reset, the oldest first (R30; a ghost variable). -/
  trace : List PinEvent
  /-- `CFG` (R33). -/
  cfg : PinConfig
  /-- MODEL'S OWN (log 4): `WORD_ORDER` and `CLEAR_ORDER`. -/
  params : Params
  /-- MODEL'S OWN (log 5): the result codes returned to HOST since reset, the oldest first (R134, R174). -/
  results : List ResultCode
  /-- MODEL'S OWN (log 1): the environment's moves to come, the next first. -/
  inputs : List Input
  deriving DecidableEq, Repr

/-- Why the machine stops. -/
inductive Fault where
  /-- Raised by `step` for a TICK that arrives while `SEQ` is BUSY, an error of the environment with no defined
  behaviour (R146). SAFE: the run is stuck in a named state, so nothing can be proved of what follows (U7; log 9). -/
  | overrun
  deriving DecidableEq, Repr

/-- Why a step does not exist. -/
inductive Refusal where
  /-- Raised by `exec` for an instruction that has no meaning yet. SAFE. No arm uses it. -/
  | notModelled (mnemonic : String)
  /-- Raised by the meaning of a command word that is run while `SEQ` or `HST` is not IDLE: R158 gives HOST no such
  move. SAFE (log 10). `step` never asks for it: there the word waits. -/
  | notAccepted
  deriving DecidableEq, Repr

/-- `WORD_ORDER` = [3,2,1,0] (R9, D9). -/
def WriteOrder.descending : WriteOrder := ⟨3, 2, 1, 0, by decide⟩

/-- `CLEAR_ORDER` = [0,1,2,3] (R9, D9). -/
def WriteOrder.ascending : WriteOrder := ⟨0, 1, 2, 3, by decide⟩

/-- Construction with three pin identifiers, the block's reset (R159, R160): it records them in `CFG`, makes the three
pins outputs and clears the digit store. It makes no pin event, so the levels and `SR` are X (R36). The write
orders are the spec's defaults (log 4); no result code has been returned (log 5), and the environment has made
no move (log 1). -/
def State.construct (dataPin shclkPin latchPin : Nat) : State :=
  { ds := ⟨Config.blank, Config.blank, Config.blank, Config.blank⟩
    sr := .x
    seq := .idle
    hst := .idle
    data := .x
    shclk := .x
    latch := .x
    trace := []
    cfg := ⟨⟨dataPin, .output⟩, ⟨shclkPin, .output⟩, ⟨latchPin, .output⟩⟩
    params := ⟨.descending, .ascending⟩
    results := []
    inputs := [] }

/-- The state after reset (R36): the construction with the block's own three identifiers. -/
def State.reset : State := State.construct Config.dataPin Config.shclkPin Config.latchPin

end Sys2Proof.Machine
end

