-- ==== Sys2Proof/Syntax.lean ====
section
/-! DEFINITION. The six host commands as syntax, one constructor per row of spec/opcode_table.json, with their
operands at the widths of the command word (spec/30_encoding.md R57 to R61). -/

namespace Sys2Proof

/-- A decoded command word. Operand fields are wider than their legal ranges on purpose (R60, R61): an
instruction with an illegal operand decodes, and its execution raises the fault (R64). -/
inductive Instr where
  /-- WRITE_NIBBLE `VAL`, `POS`: 8 bits each (R60, R73). -/
  | writeNibble (val pos : BitVec 8)
  /-- WRITE_WORD `N`: 16 bits, plain binary (R61, R77). -/
  | writeWord (n : BitVec 16)
  /-- CLEAR (R81). -/
  | clear
  /-- SHOW_ZEROS_LEFT (R119). -/
  | showZerosLeft
  /-- HIDE_ZEROS_LEFT (R121). -/
  | hideZerosLeft
  /-- UPDATE (R97). -/
  | update
  deriving DecidableEq, Repr

end Sys2Proof
end

