-- ==== Sys2Proof/Machine/Operands.lean ====
section
/-! DEFINITION. Operands: the encoder ROM and its inverse, the decimal digits of a number, the strobe byte, and
the operand checks of the commands (spec/40_segment_encoder.md, spec/41_digit_store.md R76, spec/30_encoding.md R62). -/

namespace Sys2Proof.Machine

/-- `ENC[d]`, the encoder ROM; ENCODE is its lookup (R69, R70). It has no value for d >= 10 (R71). -/
def enc : Digit → Byte
  | 0 => 0xC0#8
  | 1 => 0xF9#8
  | 2 => 0xA4#8
  | 3 => 0xB0#8
  | 4 => 0x99#8
  | 5 => 0x92#8
  | 6 => 0x82#8
  | 7 => 0xF8#8
  | 8 => 0x80#8
  | 9 => 0x90#8

/-- The inverse of ENCODE on its image (R72 (a)); the blank sentinel has none. -/
def encInverse (b : Byte) : Option Digit := (List.finRange 10).find? (fun d => enc d = b)

/-- `onehot(p) = 2^p` as a byte: the strobe byte of position `p` (R11, R54, R95). -/
def onehot (p : Pos) : Byte := 1#8 <<< p.val

/-- The decimal digit of `n` that WRITE_WORD stores at a position: `d3`, `d2`, `d1`, `d0` (R76). -/
def digitAt (n : Fin 10000) : Pos → Digit
  | 3 => ⟨n.val / 1000, by omega⟩
  | 2 => ⟨n.val % 1000 / 100, by omega⟩
  | 1 => ⟨n.val % 100 / 10, by omega⟩
  | 0 => ⟨n.val % 10, by omega⟩

/-- The operand check of WRITE_NIBBLE; the digit is checked first (R73, R74, R141). -/
def checkNibble (val pos : BitVec 8) : Except CommandFault (Digit × Pos) :=
  if hv : val.toNat < 10 then
    if hp : pos.toNat < 4 then .ok (⟨val.toNat, hv⟩, ⟨pos.toNat, hp⟩)
    else .error .invalidPosition
  else .error .invalidDigit

/-- The operand check of WRITE_WORD (R77, R78). -/
def checkWord (n : BitVec 16) : Except CommandFault (Fin 10000) :=
  if h : n.toNat < 10000 then .ok ⟨n.toNat, h⟩ else .error .valueOutOfRange

/-- The operand check of a command, which precedes its first byte step and touches no state (R46). -/
def checkOperands : Instr → Except CommandFault Command
  | .writeNibble val pos => (checkNibble val pos).map fun dp => .writeNibble dp.1 dp.2
  | .writeWord n => (checkWord n).map .writeWord
  | .clear => .ok .clear
  | .showZerosLeft => .ok .showZerosLeft
  | .hideZerosLeft => .ok .hideZerosLeft
  | .update => .ok .update

/-- The position that byte step `i` of a write order writes (R46, D9). -/
def WriteOrder.nth (o : WriteOrder) : Fin 4 → Pos
  | 0 => o.first
  | 1 => o.second
  | 2 => o.third
  | 3 => o.fourth

/-- The number of a result code (R134). -/
def ResultCode.code : ResultCode → BitVec 3
  | .ok => 0#3
  | .raised .invalidDigit => 1#3
  | .raised .invalidPosition => 2#3
  | .raised .valueOutOfRange => 3#3
  | .raised .illegalCommand => 4#3

/-- The bits of `SR`: of a byte its own, of X the free value (log 3). -/
def ShiftByte.bits : ShiftByte → Byte
  | .byte b => b
  | .x => Config.shiftX

end Sys2Proof.Machine
end

