-- ==== Sys2Proof/Machine/Flags.lean ====
section
/-! DEFINITION. The block has no flag, condition code or predicate (spec/10_state.md R32). What stands in their
place: the one condition a command tests, and the state of a position, "implicitly encoded by pattern value"
(spec/44_zero_suppression.md R124). -/

namespace Sys2Proof.Machine

/-- `DS[p]`, the read of one register (R12, R39). -/
def DigitStore.get (ds : DigitStore) : Pos → Byte
  | 0 => ds.d0
  | 1 => ds.d1
  | 2 => ds.d2
  | 3 => ds.d3

/-- The condition of one test-and-replace: `DS[p]` holds exactly the pattern that is to be replaced (R119, R121).
It is a function of the byte just read and is stored nowhere (R32). -/
def holds (ds : DigitStore) (p : Pos) (pattern : Byte) : Bool := ds.get p = pattern

/-- The three distinguishable states of a position (R124, C7). -/
inductive PosState where
  /-- 0xFF; the source's SUPPRESSED_ZERO_SHOWN_AS_BLANK is this state too. -/
  | blank
  /-- 0xC0. -/
  | zeroShown
  /-- Any other encoded pattern. -/
  | nonzeroShown
  deriving DecidableEq, Repr

/-- The state of a position that holds `b`; a byte that is neither the blank sentinel nor a table pattern has
none (R124). -/
def posState (b : Byte) : Option PosState :=
  if b = Config.blank then some .blank
  else if b = Config.zero then some .zeroShown
  else if (encInverse b).isSome then some .nonzeroShown
  else none

end Sys2Proof.Machine
end

