-- ==== Sys2Proof/Machine/Ops.lean ====
section
/-! DEFINITION. The named operations over the digit store, the lines and the shift byte, the end of a command
(OK or a fault), and the entry of and return from a refresh cycle. -/

namespace Sys2Proof.Machine

/-! ## The digit store -/

/-- `DS[p] <- v` on the register file: it changes no other register (R17). -/
def DigitStore.set (ds : DigitStore) (p : Pos) (v : Byte) : DigitStore :=
  match p with
  | 0 => { ds with d0 := v }
  | 1 => { ds with d1 := v }
  | 2 => { ds with d2 := v }
  | 3 => { ds with d3 := v }

/-- `DS[p] <- v`, one atomic byte step (R12, R45). -/
def State.writeDigit (s : State) (p : Pos) (v : Byte) : State :=
  { s with ds := s.ds.set p v }

/-- Four register writes in an order (R46): the value written to position `p` is `v p`. -/
def DigitStore.setAll (ds : DigitStore) (o : WriteOrder) (v : Pos → Byte) : DigitStore :=
  (((ds.set o.first (v o.first)).set o.second (v o.second)).set o.third (v o.third)).set o.fourth (v o.fourth)

/-- The cascade over the positions 3, 2, 1: a position that holds `old` is given `new`, and only if that happened
is the next one looked at (R119, R121). Position 0 is never touched (R123). -/
def DigitStore.cascade (ds : DigitStore) (old new : Byte) : DigitStore :=
  if holds ds 3 old then
    let ds := ds.set 3 new
    if holds ds 2 old then
      let ds := ds.set 2 new
      if holds ds 1 old then ds.set 1 new else ds
    else ds
  else ds

/-- The four byte steps of a command that writes every position, none of them interrupted. -/
def State.writeAll (s : State) (o : WriteOrder) (v : Pos → Byte) : State := { s with ds := s.ds.setAll o v }

/-- The byte steps of a cascade, none of them interrupted. -/
def State.cascade (s : State) (old new : Byte) : State := { s with ds := s.ds.cascade old new }

/-! ## The end of a command -/

/-- `result OK`: the command word ends with result code 0 (R12, R134). -/
def State.returnOk (s : State) : State :=
  { s with results := s.results ++ [.ok] }

/-- `raise F`, TAKING AN EXCEPTION: the command word ends with the fault's result code, and nothing else
changes (R12, R137). -/
def State.raiseFault (s : State) (f : CommandFault) : State :=
  { s with results := s.results ++ [.raised f] }

/-- The block accepts a command word only when `HST` and `SEQ` are IDLE (R158, D2). -/
abbrev State.accepting (s : State) : Prop := s.seq = .idle ∧ s.hst = .idle

/-- A command word's meaning where the block accepts one, and no step elsewhere (R158). -/
def State.ifAccepting (s : State) (next : State) : Host.Outcome State Fault Refusal :=
  if s.accepting then .next next else .refused .notAccepted

/-! ## Pin events -/

/-- The level a pin event gives its line (R12). -/
def Level.of (b : Bool) : Level := if b then .high else .low

/-- The level of a line (R27). -/
def State.level (s : State) : Line → Level
  | .data => s.data
  | .shclk => s.shclk
  | .latch => s.latch

/-- `line <- b`: the pin event `(line, b)`, made also when the level does not change (R12, R85). -/
def State.drive (s : State) (l : Line) (b : Bool) : State :=
  match l with
  | .data => { s with data := Level.of b, trace := s.trace ++ [⟨.data, b⟩] }
  | .shclk => { s with shclk := Level.of b, trace := s.trace ++ [⟨.shclk, b⟩] }
  | .latch => { s with latch := Level.of b, trace := s.trace ++ [⟨.latch, b⟩] }

/-- `SR <- b` (R12). -/
def State.loadShift (s : State) (b : Byte) : State := { s with sr := .byte b }

/-- `SR <- SR << 1`: bit 7 is dropped and bit 0 becomes 0 (R11, R87). -/
def State.shiftLeft (s : State) : State := { s with sr := .byte (s.sr.bits <<< 1) }

/-- `DATA <- SR[7]` (R84, R105). -/
def State.driveTopBit (s : State) : State := s.drive .data s.sr.bits.msb

/-- CLOCK_PULSE (R88). -/
def State.clockPulse (s : State) : State := (s.drive .shclk false).drive .shclk true

/-- LATCH_PULSE (R96). -/
def State.latchPulse (s : State) : State := (s.drive .latch false).drive .latch true

/-- The body of SEND_PATTERN's loop, `n` times (R84). -/
def State.sendBits : Nat → State → State
  | 0, s => s
  | n + 1, s => State.sendBits n s.driveTopBit.clockPulse.shiftLeft

/-- SEND_PATTERN `b` (R84). -/
def State.sendPattern (s : State) (b : Byte) : State := State.sendBits 8 (s.loadShift b)

/-- One turn of UPDATE's loop: frame `p` and its latch pulse (R97, R98). -/
def State.sendFrame (s : State) (p : Pos) : State :=
  ((s.sendPattern (s.ds.get p)).sendPattern (onehot p)).latchPulse

/-- The whole refresh cycle, the positions in the order 0, 1, 2, 3 (R97). -/
def State.refreshCycle (s : State) : State :=
  (((s.sendFrame 0).sendFrame 1).sendFrame 2).sendFrame 3

/-! ## Entry of and return from a refresh cycle -/

/-- The start step, which is also how a TICK is taken: `SR` is loaded with `DS[0]`, no pin event is made, nothing is
saved, and `HST` keeps its value (R104, R145). -/
def State.startRefresh (s : State) : State :=
  { s with sr := .byte s.ds.d0, seq := .shift 0 .seg 0 .d }

/-- A host command ends: `HST` is IDLE again and result OK is returned (R31, R134). -/
def State.finishCommand (s : State) : State :=
  { s with hst := .idle, results := s.results ++ [.ok] }

/-- The return from a refresh cycle: `SEQ` is IDLE (R147), and if it was an UPDATE's, UPDATE returns OK (R109).
DEDUCED (log 6): `HST` is `RUN(UPDATE, 0)` during a cycle that HOST started. -/
def State.endRefresh (s : State) : State :=
  match s.hst with
  | .run .update _ => { s with seq := .idle }.finishCommand
  | _ => { s with seq := .idle }

end Sys2Proof.Machine
end

