-- ==== Sys2Proof/Machine/DigitStoreCommands.lean ====
section
/-! DEFINITION. WRITE_NIBBLE, WRITE_WORD and CLEAR (spec/41_digit_store.md). -/

namespace Sys2Proof.Machine

/-- WRITE_NIBBLE `VAL`, `POS` (R73, R74). -/
def execWriteNibble (val pos : BitVec 8) (s : State) : Host.Outcome State Fault Refusal :=
  s.ifAccepting <|
    match checkNibble val pos with
    | .error f => s.raiseFault f
    | .ok (d, p) => (s.writeDigit p (enc d)).returnOk

/-- WRITE_WORD `N` (R77, R78). The order of the four writes is `WORD_ORDER` (D9). -/
def execWriteWord (n : BitVec 16) (s : State) : Host.Outcome State Fault Refusal :=
  s.ifAccepting <|
    match checkWord n with
    | .error f => s.raiseFault f
    | .ok m => (s.writeAll s.params.wordOrder fun p => enc (digitAt m p)).returnOk

/-- CLEAR (R81). The order of the four writes is `CLEAR_ORDER` (D9). -/
def execClear (s : State) : Host.Outcome State Fault Refusal :=
  s.ifAccepting (s.writeAll s.params.clearOrder fun _ => Config.blank).returnOk

end Sys2Proof.Machine
end

