-- ==== Sys2Proof/Machine/Refresh.lean ====
section
/-! DEFINITION. UPDATE as one step (spec/43_multiplex_refresh.md R97). -/

namespace Sys2Proof.Machine

/-- UPDATE (R97). -/
def execUpdate (s : State) : Host.Outcome State Fault Refusal :=
  s.ifAccepting s.refreshCycle.returnOk

end Sys2Proof.Machine
end

