-- ==== Sys2Proof/Machine/ZeroSuppression.lean ====
section
/-! DEFINITION. SHOW_ZEROS_LEFT and HIDE_ZEROS_LEFT (spec/44_zero_suppression.md). -/

namespace Sys2Proof.Machine

/-- SHOW_ZEROS_LEFT (R119). -/
def execShowZerosLeft (s : State) : Host.Outcome State Fault Refusal :=
  s.ifAccepting (s.cascade Config.blank Config.zero).returnOk

/-- HIDE_ZEROS_LEFT (R121). -/
def execHideZerosLeft (s : State) : Host.Outcome State Fault Refusal :=
  s.ifAccepting (s.cascade Config.zero Config.blank).returnOk

end Sys2Proof.Machine
end

