-- ==== Sys2Proof/Machine/Dispatch.lean ====
section
/-! DEFINITION. One arm per command: the meaning of the command word, where the block accepts it. -/

namespace Sys2Proof.Machine

def exec (i : Instr) (s : State) : Host.Outcome State Fault Refusal :=
  match i with
  | .writeNibble val pos => Sys2Proof.Machine.execWriteNibble val pos s
  | .writeWord n => Sys2Proof.Machine.execWriteWord n s
  | .clear => Sys2Proof.Machine.execClear s
  | .showZerosLeft => Sys2Proof.Machine.execShowZerosLeft s
  | .hideZerosLeft => Sys2Proof.Machine.execHideZerosLeft s
  | .update => Sys2Proof.Machine.execUpdate s

end Sys2Proof.Machine
end

