-- ==== Sys2Proof/Decode.lean ====
section
/-! DEFINITION. The command word: its fields, the opcode table of spec/30_encoding.md R59, the total decoder
(R63) and the encoder (R66). -/

namespace Sys2Proof

/-- Why a word is illegal (R63). Both raise IllegalCommand (R136). -/
inductive DecodeError where
  /-- R63 (a): `OP` is 0x0 or 0x7..0xF. -/
  | reservedOpcode (op : BitVec 4)
  /-- R63 (b): `OP` is 0x3..0x6 and `ARG` is not 0. -/
  | nonzeroArgument (op : BitVec 4) (arg : BitVec 16)
  deriving DecidableEq, Repr

/-- `OP` = CW[19:16] (R58). -/
def opField (w : CommandWord) : BitVec 4 := w.extractLsb' 16 4

/-- `ARG` = CW[15:0] (R58). -/
def argField (w : CommandWord) : BitVec 16 := w.extractLsb' 0 16

/-- `POS` = CW[15:8] (R60). -/
def posField (w : CommandWord) : BitVec 8 := w.extractLsb' 8 8

/-- `VAL` = CW[7:0] (R60). -/
def valField (w : CommandWord) : BitVec 8 := w.extractLsb' 0 8

/-- An operand-less command: its `ARG` must be 0 (R59, R63 (b)). -/
def operandless (i : Instr) (w : CommandWord) : Except DecodeError Instr :=
  if argField w = 0#16 then .ok i else .error (.nonzeroArgument (opField w) (argField w))

/-- The decoder (R59, R63): every 20-bit word is one command with its operands, or illegal. -/
def decode (w : CommandWord) : Except DecodeError Instr :=
  match (opField w).toNat with
  | 1 => .ok (.writeNibble (valField w) (posField w))
  | 2 => .ok (.writeWord (argField w))
  | 3 => operandless .clear w
  | 4 => operandless .showZerosLeft w
  | 5 => operandless .hideZerosLeft w
  | 6 => operandless .update w
  | _ => .error (.reservedOpcode (opField w))

/-- The command word of a command: `OP` above `ARG`, and in WRITE_NIBBLE's `ARG`, `POS` above `VAL` (R59, R66). -/
def encode : Instr → CommandWord
  | .writeNibble val pos => 0x1#4 ++ (pos ++ val)
  | .writeWord n => 0x2#4 ++ n
  | .clear => 0x3#4 ++ 0#16
  | .showZerosLeft => 0x4#4 ++ 0#16
  | .hideZerosLeft => 0x5#4 ++ 0#16
  | .update => 0x6#4 ++ 0#16

/-- One row of the opcode map (R59): a word is of the row when `w AND mask = match`. -/
structure OpcodeRow where
  mnemonic : String
  matchBits : CommandWord
  mask : CommandWord
  deriving DecidableEq, Repr

/-- The word is of the row (R59). -/
def OpcodeRow.accepts (r : OpcodeRow) (w : CommandWord) : Bool := w &&& r.mask = r.matchBits

/-- The row of a command (R59). -/
def opcodeRow : Instr → OpcodeRow
  | .writeNibble _ _ => ⟨"WRITE_NIBBLE", 0x10000#20, 0xF0000#20⟩
  | .writeWord _ => ⟨"WRITE_WORD", 0x20000#20, 0xF0000#20⟩
  | .clear => ⟨"CLEAR", 0x30000#20, 0xFFFFF#20⟩
  | .showZerosLeft => ⟨"SHOW_ZEROS_LEFT", 0x40000#20, 0xFFFFF#20⟩
  | .hideZerosLeft => ⟨"HIDE_ZEROS_LEFT", 0x50000#20, 0xFFFFF#20⟩
  | .update => ⟨"UPDATE", 0x60000#20, 0xFFFFF#20⟩

/-- The low `nbits` bits of `w`, given to the decoder as a command word. A command word has 20 bits (R58): a
number that needs more is no word of the command port (log 13). -/
def decodeTableWord (nbits w : Nat) : Option Instr :=
  if w % 2 ^ nbits < 2 ^ 20 then (decode (BitVec.ofNat 20 (w % 2 ^ nbits))).toOption else none

end Sys2Proof
end

