-- ==== Sys2Proof/Machine/HostSteps.lean ====
section
/-! DEFINITION. A host command taken one byte step at a time, so that a refresh cycle may fall between two of them
(spec/20_memory.md R45, R46; spec/10_state.md R31). -/

namespace Sys2Proof.Machine

/-- The byte step `i` was done and it was not the last (R31): the next is `i + 1`. -/
def State.nextByteStep (s : State) (c : Command) (i : Fin 4) : State :=
  { s with hst := .run c (i + 1) }

/-- The position of test-and-replace `i` of a cascade: 3, then 2, then 1 (R46). -/
def cascadePos (i : Fin 4) : Pos := 3 - i

/-- One test-and-replace of a cascade; if it replaced and position 1 is not reached, the cascade goes on (R46). -/
def State.testAndReplace (s : State) (c : Command) (i : Fin 4) (old new : Byte) : State :=
  if holds s.ds (cascadePos i) old then
    let s := s.writeDigit (cascadePos i) new
    if i < 2 then s.nextByteStep c i else s.finishCommand
  else s.finishCommand

/-- One write of a command that writes all four positions in an order (R46). -/
def State.writeInOrder (s : State) (c : Command) (i : Fin 4) (o : WriteOrder) (v : Pos → Byte) : State :=
  let s := s.writeDigit (o.nth i) (v (o.nth i))
  if i < 3 then s.nextByteStep c i else s.finishCommand

/-- Byte step `i` of a command (R46). UPDATE has none: when `SEQ` is IDLE it has finished (log 6). -/
def byteStep (s : State) (c : Command) (i : Fin 4) : State :=
  match c with
  | .writeNibble d p => (s.writeDigit p (enc d)).finishCommand
  | .writeWord n => s.writeInOrder c i s.params.wordOrder fun p => enc (digitAt n p)
  | .clear => s.writeInOrder c i s.params.clearOrder fun _ => Config.blank
  | .showZerosLeft => s.testAndReplace c i Config.blank Config.zero
  | .hideZerosLeft => s.testAndReplace c i Config.zero Config.blank
  | .update => s.finishCommand

/-- HOST's next step: the byte step of the command in progress, if there is one (R158). -/
def hostStep (s : State) : State :=
  match s.hst with
  | .idle => s
  | .run c i => byteStep s c i

/-- HOST sends a command that is to be taken stepwise: the operand check, and `HST` records it (R31, R46). An
UPDATE is accepted by its start step (R104; log 6). -/
def beginCommand (s : State) (i : Instr) : State :=
  match checkOperands i with
  | .error f => s.raiseFault f
  | .ok .update => { s with hst := .run .update 0 }.startRefresh
  | .ok c => { s with hst := .run c 0 }

end Sys2Proof.Machine
end

