-- ==== Sys2Proof/Machine/Sequencer.lean ====
section
/-! DEFINITION. The multiplex sequencer: UPDATE as 200 small steps, one pin event each
(spec/43_multiplex_refresh.md R105 to R109). -/

namespace Sys2Proof.Machine

/-- The clock-high step's choice of the next value of `SEQ`, and the strobe's load (R107). -/
def State.afterBit (s : State) (p : Pos) (ph : BytePhase) (k : Fin 8) : State :=
  if k < 7 then { s with seq := .shift p ph (k + 1) .d }
  else
    match ph with
    | .seg => { s.loadShift (onehot p) with seq := .shift p .stb 0 .d }
    | .stb => { s with seq := .latch p .l }

/-- The latch-high step's choice: the next frame, or the end of the cycle (R109). -/
def State.afterFrame (s : State) (p : Pos) : State :=
  if p < 3 then { s.loadShift (s.ds.get (p + 1)) with seq := .shift (p + 1) .seg 0 .d }
  else s.endRefresh

/-- The one step of a BUSY value; IDLE has none and stays (R105 to R109). -/
def seqStep (s : State) : State :=
  match s.seq with
  | .idle => s
  | .shift p ph k .d => { s.driveTopBit with seq := .shift p ph k .l }
  | .shift p ph k .l => { s.drive .shclk false with seq := .shift p ph k .h }
  | .shift p ph k .h => (s.drive .shclk true).shiftLeft.afterBit p ph k
  | .latch p .l => { s.drive .latch false with seq := .latch p .h }
  | .latch p .h => (s.drive .latch true).afterFrame p

/-- The number of pin events a refresh cycle has made when `SEQ` has this value (R22: 50 a position). -/
def SeqState.eventsMade : SeqState → Nat
  | .idle => 0
  | .shift p ph k sub =>
    50 * p.val + (match ph with | .seg => 0 | .stb => 24) + 3 * k.val
      + (match sub with | .d => 0 | .l => 1 | .h => 2)
  | .latch p sub => 50 * p.val + 48 + (match sub with | .l => 0 | .h => 1)

end Sys2Proof.Machine
end

