-- ==== Sys2Proof/Machine/Schedule.lean ====
section
/-! DEFINITION. Which agent moves next (spec/20_memory.md R49, R50; spec/43_multiplex_refresh.md R103;
spec/60_exceptions.md R158): the sequencer while `SEQ` is BUSY, else a tick that arrives, else the host command in
progress, else the next command word. -/

namespace Sys2Proof.Machine

/-- What the next step does, with the state once the environment's move is taken. -/
inductive Activity where
  /-- A TICK arrives while `SEQ` is BUSY (R146). -/
  | overrun
  /-- The next pin event of the refresh cycle (R105 to R109). -/
  | pinEvent (s : State)
  /-- A TICK is taken (R103, R145). -/
  | tick (s : State)
  /-- HOST's next byte step (R46), or nothing if no command is in progress. -/
  | host (s : State)
  /-- A command word arrives, to be run whole. -/
  | whole (w : CommandWord) (s : State)
  /-- A command word arrives, to be run stepwise. -/
  | stepwise (w : CommandWord) (s : State)

/-- The step of the block during which nothing arrives: a leading `pass` of the environment is used up. -/
def State.takePass (s : State) : State :=
  match s.inputs with
  | .pass :: rest => { s with inputs := rest }
  | _ => s

/-- The environment's next move is used up. -/
def State.takeInput (s : State) : State := { s with inputs := s.inputs.tail }

/-- Which agent moves next, and on what. A command word that arrives while a command is in progress or a cycle
runs waits: HOST sends it when both are IDLE (R50 (b), R158). -/
def activity (s : State) : Activity :=
  match s.seq with
  | .idle =>
    match s.inputs with
    | .tick :: _ => .tick s.takeInput
    | .command w :: _ => if s.hst = .idle then .whole w s.takeInput else .host s
    | .commandStepwise w :: _ => if s.hst = .idle then .stepwise w s.takeInput else .host s
    | _ => .host s.takePass
  | _ =>
    match s.inputs with
    | .tick :: _ => .overrun
    | _ => .pinEvent s.takePass

/-- A command word that is to be run stepwise is decoded; an illegal one raises IllegalCommand (R136). -/
def beginWord (s : State) (w : CommandWord) : State :=
  match decode w with
  | .ok i => beginCommand s i
  | .error _ => s.raiseFault .illegalCommand

/-- The block with both agents idle and a command word about to arrive, ahead of every other move, to be run
whole. -/
def State.offerWord (s : State) (w : CommandWord) : State :=
  { s with seq := .idle, hst := .idle, inputs := .command w :: s.inputs }

end Sys2Proof.Machine
end

