-- ==== Sys2Proof/Machine/Step.lean ====
section
/-! DEFINITION. One step of the machine: one byte step of a host command, one pin event of the sequencer, the start
of a refresh cycle, or a whole command between two ticks (spec/70_reset_and_hazards.md R171, D1; log 2). -/

namespace Sys2Proof.Machine

/-- One step. With no move of the environment and nothing in progress the block stays as it is: it never halts
(R174). A command word is decoded and run (R158); an illegal one raises IllegalCommand (R136). -/
def step (s : State) : Host.Outcome State Fault Refusal :=
  match activity s with
  | .overrun => .fault .overrun
  | .pinEvent s' => .next (seqStep s')
  | .tick s' => .next s'.startRefresh
  | .host s' => .next (hostStep s')
  | .stepwise w s' => .next (beginWord s' w)
  | .whole w s' =>
    match decode w with
    | .ok i => exec i s'
    | .error _ => .next (s'.raiseFault .illegalCommand)

/-- `s` with the command word of the low 20 of the low `nbits` bits of `w` about to arrive, where the very next step
takes and runs it (log 7). -/
def State.withFetchWord (s : State) (nbits w : Nat) : State :=
  s.offerWord (BitVec.ofNat 20 (w % 2 ^ nbits))

end Sys2Proof.Machine
end

