-- ==== Sys2Proof/Machine/Wire.lean ====
section
/-! DEFINITION. What an observer of the three lines makes of a list of pin events: edges, sampled bits, and the
frame trace (spec/10_state.md R29; spec/42_serial_transmitter.md R86; spec/43_multiplex_refresh.md R111). Nothing here
is read by the block. -/

namespace Sys2Proof.Machine

/-- The electrical levels of the three lines. An observer cannot see X: a line the block has not driven has some
level, and a claim quantifies over it (R29, U9). -/
structure Wires where
  data : Bool
  shclk : Bool
  latch : Bool
  deriving DecidableEq, Repr

/-- The levels after a pin event. -/
def Wires.after (w : Wires) (e : PinEvent) : Wires :=
  match e.line with
  | .data => { w with data := e.level }
  | .shclk => { w with shclk := e.level }
  | .latch => { w with latch := e.level }

/-- The level of a line. -/
def Wires.level (w : Wires) : Line → Bool
  | .data => w.data
  | .shclk => w.shclk
  | .latch => w.latch

/-- A rising edge on `l`: an event that writes 1 to it when its level was 0 (R29). -/
def Wires.rises (w : Wires) (l : Line) (e : PinEvent) : Bool :=
  e.line = l && e.level && !w.level l

/-- The number of rising edges on a line. -/
def risingEdges (l : Line) : Wires → List PinEvent → Nat
  | _, [] => 0
  | w, e :: es => (if w.rises l e then 1 else 0) + risingEdges l (w.after e) es

/-- The levels of DATA at the rising edges of SHCLK, in order (R86). -/
def sampledBits : Wires → List PinEvent → List Bool
  | _, [] => []
  | w, e :: es =>
    if w.rises .shclk e then w.data :: sampledBits (w.after e) es else sampledBits (w.after e) es

/-- An item of a frame trace: a transmitted byte, or a level of the latch line (R111). -/
inductive FrameItem where
  | byte (b : Byte)
  | lo
  | hi
  deriving DecidableEq, Repr

/-- The frame trace of a list of pin events when `n` bits of a byte, `acc`, are sampled already: every eight sampled
bits are a byte, the first sampled the most significant, and the events on LATCH are `lo` and `hi` (R111). -/
def frameTraceFrom : Wires → Nat → Byte → List PinEvent → List FrameItem
  | _, _, _, [] => []
  | w, n, acc, e :: es =>
    match e.line with
    | .latch => (if e.level then .hi else .lo) :: frameTraceFrom (w.after e) n acc es
    | .data => frameTraceFrom (w.after e) n acc es
    | .shclk =>
      if w.rises .shclk e then
        let acc := acc <<< 1 ||| (BitVec.ofBool w.data).setWidth 8
        if n = 7 then .byte acc :: frameTraceFrom (w.after e) 0 0 es
        else frameTraceFrom (w.after e) (n + 1) acc es
      else frameTraceFrom (w.after e) n acc es

/-- The frame trace of a list of pin events (R111). -/
def frameTrace (w : Wires) (es : List PinEvent) : List FrameItem := frameTraceFrom w 0 0 es

/-! ## The events of a refresh cycle, listed -/

/-- One bit on the wire is three pin events (R56). -/
def bitEvents (b : Bool) : List PinEvent := [⟨.data, b⟩, ⟨.shclk, false⟩, ⟨.shclk, true⟩]

/-- One latch pulse is two pin events (R56). -/
def latchEvents : List PinEvent := [⟨.latch, false⟩, ⟨.latch, true⟩]

/-- The 24 pin events of SEND_PATTERN `b`, from bit 7 down to bit 0 (R85). -/
def patternEvents (b : Byte) : List PinEvent :=
  [7, 6, 5, 4, 3, 2, 1, 0].flatMap fun i => bitEvents (b.getLsbD i)

/-- The 50 pin events of a frame (R98). -/
def frameEvents (pattern : Byte) (p : Pos) : List PinEvent :=
  patternEvents pattern ++ patternEvents (onehot p) ++ latchEvents

/-- The 200 pin events of a refresh cycle over a digit store (R97, R99). -/
def cycleEvents (ds : DigitStore) : List PinEvent :=
  frameEvents ds.d0 0 ++ frameEvents ds.d1 1 ++ frameEvents ds.d2 2 ++ frameEvents ds.d3 3

end Sys2Proof.Machine
end

