-- ==== Sys2Proof/Machine/Receiver.lean ====
section
/-! DEFINITION. The reference receiver, outside the block (spec/43_multiplex_refresh.md R113 to R117): a 16-stage
shift chain and an output register, driven by pin events; and what the display shows. Nothing here constrains the
block. Its contents at reset are unknown (R116), so a claim quantifies over the receiver it starts from. -/

namespace Sys2Proof.Machine

/-- The shift chain `Q`, the output register `OUT` (R113), and the levels the receiver sees on its inputs. -/
structure Receiver where
  wires : Wires
  q : BitVec 16
  out : BitVec 16
  deriving DecidableEq, Repr

/-- One pin event at the receiver: a rising edge of SHCLK shifts DATA into the chain (R114), a rising edge of LATCH
copies the chain to the outputs (R115), and any other event changes neither. -/
def Receiver.after (r : Receiver) (e : PinEvent) : Receiver :=
  { wires := r.wires.after e
    q := if r.wires.rises .shclk e then r.q <<< 1 ||| (BitVec.ofBool r.wires.data).setWidth 16 else r.q
    out := if r.wires.rises .latch e then r.q else r.out }

/-- A list of pin events at the receiver. -/
def Receiver.run (r : Receiver) (es : List PinEvent) : Receiver := es.foldl Receiver.after r

/-- Segment line `j` is `OUT[8+j]`, lit when 0 (R116). -/
def Receiver.lit (r : Receiver) (j : Fin 8) : Bool := !r.out.getLsbD (8 + j.val)

/-- Select line `q` is `OUT[q]`, active when 1 (R116). -/
def Receiver.selected (r : Receiver) (q : Pos) : Bool := r.out.getLsbD q.val

/-- The segments of a digit and its decimal point, by the bit that drives each: bit 0 = a .. bit 6 = g, bit 7 = the
decimal point. PRESUMED (log 8): R53 gives the assignment from general knowledge, and no rule depends on it. -/
inductive Segment where
  | a
  | b
  | c
  | d
  | e
  | f
  | g
  | dp
  deriving DecidableEq, Repr

/-- The segments a pattern lights; a 0 bit lights its segment (R53; log 8). -/
def litSegments (pattern : Byte) : List Segment :=
  ([(0, .a), (1, .b), (2, .c), (3, .d), (4, .e), (5, .f), (6, .g), (7, .dp)] : List (Nat × Segment)).filterMap
    fun bit => if pattern.getLsbD bit.1 then none else some bit.2

end Sys2Proof.Machine
end

