-- ==== Sys2Proof/WellFormed.lean ====
section
/-! DEFINITION. The static check on commands: which are fault-free (spec/30_encoding.md R64). The field widths
make every other term of `Instr` encodable, so this is the only check there is. -/

namespace Sys2Proof

/-- The operands lie in their legal ranges: `VAL` 0..9, `POS` 0..3 (R60), `N` 0..9999 (R61).
A command that fails the check is still a command: it decodes, and it faults when it runs (R64). -/
def Instr.faultFree : Instr → Bool
  | .writeNibble val pos => val.toNat ≤ 9 && pos.toNat ≤ 3
  | .writeWord n => n.toNat ≤ Config.wordMax
  | .clear => true
  | .showZerosLeft => true
  | .hideZerosLeft => true
  | .update => true

end Sys2Proof
end

