-- ==== Sys2Proof/Safety.lean ====
section
/-! DEFINITION. What claims speak of: a safe run, a complete one, and the invariant of the block. -/

namespace Sys2Proof.Machine

/-- `n` steps, stopping at the first fault or refusal: `Host.Core.run` of the machine, over its own types. -/
def runSteps : Nat → State → Host.Outcome State Fault Refusal
  | 0, s => .next s
  | n + 1, s =>
    match step s with
    | .next t => runSteps n t
    | .fault r => .fault r
    | .refused r => .refused r

/-- The premise "no TICK while `SEQ` is BUSY" (spec/60_exceptions.md R146) for the next step. -/
abbrev State.NoOverrun (s : State) : Prop := s.seq ≠ .idle → s.inputs.head? ≠ some .tick

/-- A run is complete when both agents are IDLE (spec/70_reset_and_hazards.md R174). -/
abbrev State.Complete (s : State) : Prop := s.accepting

/-- What arrives next, if anything, is a command word: no tick and no `pass` leads the environment's moves. -/
abbrev wordsFirst (inputs : List Input) : Prop := inputs.head? ≠ some .tick ∧ inputs.head? ≠ some .pass

/-- What is still to arrive after `n` steps in which the block is not IDLE: each such step uses up a leading `pass`, and
a command word waits (R50 (b), R158; log 1). -/
def passesUsed : Nat → List Input → List Input
  | n + 1, .pass :: rest => passesUsed n rest
  | _, inputs => inputs

/-- No TICK arrives during `n` steps in which the block is not IDLE (the premise of R146 for a stretch of a run). -/
def noTickFor : Nat → List Input → Bool
  | 0, _ => true
  | _ + 1, .tick :: _ => false
  | n + 1, .pass :: rest => noTickFor n rest
  | _ + 1, _ => true

/-- The word ends with a fault: it is illegal (R63), or an operand is out of range (R64). -/
def FaultingWord (w : CommandWord) : Prop :=
  (∃ e, decode w = .error e) ∨ ∃ i, decode w = .ok i ∧ i.faultFree = false

/-- `t` is `s` after a fault `f` that left the result code alone, and goes on as `s` would have: every command does what
it would have done, but for that code, and a TICK starts a refresh cycle (R137, R138). -/
structure State.GoesOnAfter (s : State) (f : CommandFault) (t : State) : Prop where
  onlyTheCode : t = { s with results := s.results ++ [.raised f] }
  nextCommand : ∀ j u, exec j s = .next u →
    ∃ c, u.results = s.results ++ [c] ∧ exec j t = .next { u with results := s.results ++ [.raised f, c] }
  nextTick : s.seq = .idle → ∀ rest, step { t with inputs := .tick :: rest } =
    .next { t with inputs := rest, sr := .byte (s.ds.get 0), seq := .shift 0 .seg 0 .d }

/-- One of the eleven values a register may hold (spec/10_state.md R19). -/
abbrev LegalPattern (b : Byte) : Prop := b = Config.blank ∨ ∃ d : Digit, b = enc d

/-- Every register holds one of the eleven values (R19). -/
abbrev DigitStore.Legal (ds : DigitStore) : Prop := ∀ p : Pos, LegalPattern (ds.get p)

/-- The number of byte steps of a command, at most (spec/20_memory.md R46). -/
def Command.byteSteps : Command → Nat
  | .writeNibble _ _ => 1
  | .writeWord _ => 4
  | .clear => 4
  | .showZerosLeft => 3
  | .hideZerosLeft => 3
  | .update => 0

/-- `HST` records a byte step its command has, or an UPDATE whose refresh cycle is running (R31; log 6). -/
def State.HostAgrees (s : State) : Prop :=
  match s.hst with
  | .idle => True
  | .run .update _ => s.seq ≠ .idle
  | .run c i => i.val < c.byteSteps

/-- The byte that the transmitter is sending in a phase of frame `p` (R21, R97). -/
def State.sentByte (s : State) (p : Pos) : BytePhase → Byte
  | .seg => s.ds.get p
  | .stb => onehot p

/-- `SR` is the byte being sent, shifted left once for each bit already clocked (R87); between bytes it is 0x00, and
before the first refresh cycle X (R25, R26). -/
def State.ShiftAgrees (s : State) : Prop :=
  match s.seq with
  | .idle => s.sr = if s.trace = [] then .x else .byte 0
  | .shift p ph k _ => s.sr = .byte (s.sentByte p ph <<< k.val)
  | .latch _ _ => s.sr = .byte 0

/-- The level the trace leaves a line at: that of the line's last event, or X where it has none (R27). -/
def levelAfter (l : Line) (trace : List PinEvent) : Level :=
  match trace.reverse.find? (fun e => e.line = l) with
  | some e => Level.of e.level
  | none => .x

/-- Each line has the level its last pin event gave it (R27). -/
def State.LinesAgree (s : State) : Prop := ∀ l, s.level l = levelAfter l s.trace

/-- The wire protocol (R30, R97, R101): everything made on the lines since reset is a number of whole refresh
cycles, each over a store of legal patterns, followed by the part of a cycle over the present store that `SEQ`
stands at. -/
def State.WireProtocol (s : State) : Prop :=
  ∃ shown : List DigitStore, (∀ ds ∈ shown, ds.Legal) ∧
    s.trace = shown.flatMap cycleEvents ++ (cycleEvents s.ds).take s.seq.eventsMade

/-- The three pins are outputs (R27, R160). -/
def State.PinsAreOutputs (s : State) : Prop :=
  s.cfg.dataPin.direction = .output ∧ s.cfg.shclkPin.direction = .output ∧ s.cfg.latchPin.direction = .output

/-- The invariant of the block. Its part `hostAgrees` holds `HST` to be `RUN(UPDATE, i)` only while `SEQ` is BUSY, which is
the model's reading (log 6). -/
structure State.Inv (s : State) : Prop where
  dsLegal : s.ds.Legal
  hostAgrees : s.HostAgrees
  shiftAgrees : s.ShiftAgrees
  linesAgree : s.LinesAgree
  wireProtocol : s.WireProtocol
  pinsAreOutputs : s.PinsAreOutputs

end Sys2Proof.Machine
end

