-- ==== Sys2Proof/Certificates/Slice0/Obligations.lean ====
section
/-! DEFINITION. The statements about the block, each a numbered rule of spec/ or a consequence of several. A state
that accepts command words is one with `SEQ` and `HST` IDLE (`State.accepting`, R158). -/

open Sys2Proof Sys2Proof.Machine

/-! ## Reset -/

/-- R18, R160: construction records the three identifiers, makes the pins outputs and clears the digit store; it
leaves both agents IDLE, makes no pin event and leaves the levels and `SR` X; and the encoding table is the same
constant. The reset state is such a construction. -/
def Obligations.ConstructionClearsTheStoreAndDrivesNoLine : Prop :=
  (∀ a b c : Nat, ∀ (s : State), s = State.construct a b c →
    (s.cfg.dataPin.id = a ∧ s.cfg.shclkPin.id = b ∧ s.cfg.latchPin.id = c) ∧
    s.PinsAreOutputs ∧
    (∀ p, s.ds.get p = 0xFF#8) ∧
    s.seq = .idle ∧ s.hst = .idle ∧ s.trace = [] ∧
    s.sr = .x ∧ (∀ l, s.level l = .x) ∧
    (List.finRange 10).map enc =
      [0xC0#8, 0xF9#8, 0xA4#8, 0xB0#8, 0x99#8, 0x92#8, 0x82#8, 0xF8#8, 0x80#8, 0x90#8]) ∧
  State.reset = State.construct Config.dataPin Config.shclkPin Config.latchPin

/-- The invariant of the block holds at reset. Its clause about UPDATE in `HST` is the model's choice (log 6). -/
def Obligations.BlockInvariantHoldsAtReset : Prop :=
  ∀ a b c : Nat, (State.construct a b c).Inv

/-! ## Command words -/

/-- Words written out from the encodings of R59 and R66 (95_test_vectors.md V2 to V6) decode to their commands. -/
def Obligations.WrittenOutWordsDecode : Prop :=
  decode 0b00010000001000001000#20 = .ok (.writeNibble 8#8 2#8) ∧
  decode 0x1070C#20 = .ok (.writeNibble 12#8 7#8) ∧
  decode 0b00100001011000101110#20 = .ok (.writeWord 5678#16) ∧
  decode 0x2FFFF#20 = .ok (.writeWord 65535#16) ∧
  decode 0b00110000000000000000#20 = .ok .clear ∧
  decode 0b01000000000000000000#20 = .ok .showZerosLeft ∧
  decode 0b01010000000000000000#20 = .ok .hideZerosLeft ∧
  decode 0b01100000000000000000#20 = .ok .update ∧
  decode 0x00000#20 = .error (.reservedOpcode 0#4) ∧
  decode 0x30001#20 = .error (.nonzeroArgument 3#4 1#16)

/-- Decoding and encoding agree both ways: decoding the word of a command gives it back, with every operand at every
value of its field, and a word that decodes is the word of what it decodes to. -/
def Obligations.DecodeAndEncodeAreInverse : Prop :=
  (∀ i, decode (encode i) = .ok i) ∧ ∀ w i, decode w = .ok i → encode i = w

/-- R66: the command word of each command, as a number. -/
def Obligations.CommandWordsAreTheSyntaxTables : Prop :=
  (∀ val pos : BitVec 8, (encode (.writeNibble val pos)).toNat = 0x10000 + pos.toNat * 256 + val.toNat) ∧
  (∀ n : BitVec 16, (encode (.writeWord n)).toNat = 0x20000 + n.toNat) ∧
  (encode .clear).toNat = 0x30000 ∧
  (encode .showZerosLeft).toNat = 0x40000 ∧
  (encode .hideZerosLeft).toNat = 0x50000 ∧
  (encode .update).toNat = 0x60000

/-- R59: a word is the command of a row when `w AND mask = match`, for the six rows of the opcode map, and no word is
of two rows. -/
def Obligations.OpcodeMapDecidesTheCommand : Prop :=
  ∀ rows : List OpcodeRow, rows =
    [⟨"WRITE_NIBBLE", 0x10000#20, 0xF0000#20⟩, ⟨"WRITE_WORD", 0x20000#20, 0xF0000#20⟩,
     ⟨"CLEAR", 0x30000#20, 0xFFFFF#20⟩, ⟨"SHOW_ZEROS_LEFT", 0x40000#20, 0xFFFFF#20⟩,
     ⟨"HIDE_ZEROS_LEFT", 0x50000#20, 0xFFFFF#20⟩, ⟨"UPDATE", 0x60000#20, 0xFFFFF#20⟩] →
  (∀ w r, r ∈ rows → (w &&& r.mask = r.matchBits ↔ ∃ i, decode w = .ok i ∧ opcodeRow i = r)) ∧
  (∀ i, opcodeRow i ∈ rows) ∧
  (∀ w : CommandWord, ∀ r ∈ rows, ∀ r' ∈ rows,
    w &&& r.mask = r.matchBits → w &&& r'.mask = r'.matchBits → r = r') ∧
  (∀ val pos : BitVec 8, decode (0x1#4 ++ (pos ++ val)) = .ok (.writeNibble val pos)) ∧
  (∀ n : BitVec 16, decode (0x2#4 ++ n) = .ok (.writeWord n))

/-- R136: the words that R63 calls illegal, by their `OP` and `ARG` as numbers, are the words the decoder refuses, and
each raises IllegalCommand, result code 4, with no other effect, however it is sent. -/
def Obligations.IllegalWordsRaiseIllegalCommand : Prop :=
  ∀ w : CommandWord,
    ((∃ e, decode w = .error e) ↔
      (w.toNat / 65536 = 0 ∨ 7 ≤ w.toNat / 65536) ∨
      (3 ≤ w.toNat / 65536 ∧ w.toNat / 65536 ≤ 6 ∧ w.toNat % 65536 ≠ 0)) ∧
    ∀ (s : State) rest e, s.accepting → decode w = .error e →
      s.inputs = .command w :: rest ∨ s.inputs = .commandStepwise w :: rest →
      step s =
          .next { s with inputs := rest, results := s.results ++ [.raised .illegalCommand] } ∧
        (ResultCode.raised .illegalCommand).code = 4#3

/-! ## The step -/

/-- A step of a block that accepts command words, when one arrives to be run whole, is the meaning of the command it
decodes to, on the state without that word. -/
def Obligations.StepRunsTheDecodedCommand : Prop :=
  ∀ (s : State) w rest i, s.accepting → s.inputs = .command w :: rest → decode w = .ok i →
    step s = exec i { s with inputs := rest }

/-- A word that arrives to be taken stepwise: its operands are checked, a fault ends it, a fault-free command is
recorded in `HST` with no byte step done (R31, R46), and UPDATE takes the start step of R104. -/
def Obligations.StepBeginsAStepwiseCommand : Prop :=
  ∀ (s : State) w rest i, s.accepting → s.inputs = .commandStepwise w :: rest → decode w = .ok i →
    (∀ f, checkOperands i = .error f →
      step s = .next { s with inputs := rest, results := s.results ++ [.raised f] }) ∧
    (∀ c, checkOperands i = .ok c → c ≠ .update →
      step s = .next { s with inputs := rest, hst := .run c 0 }) ∧
    (i = .update →
      step s = .next { s with
        inputs := rest, hst := .run .update 0, sr := .byte (s.ds.get 0), seq := .shift 0 .seg 0 .d })

/-- R158 gives HOST no move unless both agents are IDLE: the meaning of a command word is then no step, by the model's
own refusal `notAccepted` (log 10), for every command. -/
def Obligations.NoCommandRunsUnlessBothAgentsAreIdle : Prop :=
  ∀ i (s : State), ¬ s.accepting → exec i s = .refused .notAccepted

/-- The machine never stops but for an overrun: every state has a next one, unless a TICK arrives while `SEQ` is BUSY
(R138, R146, R174; the named stop is the model's choice among the treatments of U7, log 9). -/
def Obligations.OnlyAnOverrunStopsTheMachine : Prop :=
  ∀ (s : State), (s.NoOverrun → ∃ t, step s = .next t) ∧
    (s.seq ≠ .idle → s.inputs.head? = some .tick → step s = .fault .overrun)

/-- R174, R171: with nothing in progress and nothing arriving, the block stays as it is. -/
def Obligations.AnIdleBlockStays : Prop :=
  ∀ (s : State), s.accepting → s.inputs = [] → step s = .next s

/-! ## The six commands -/

/-- R73, R74: WRITE_NIBBLE stores the table's pattern for `VAL` at `POS` and returns OK; `VAL` > 9 raises InvalidDigit,
also when `POS` > 3; `POS` > 3 alone raises InvalidPosition; a fault has no other effect. The pattern is read from
the table of R69 written out here. -/
def Obligations.WriteNibbleStoresTheDigitsPattern : Prop :=
  ∀ (s : State) (val pos : BitVec 8), s.accepting →
    (encode (.writeNibble val pos)).toNat = 0x10000 + pos.toNat * 256 + val.toNat ∧
    (∀ b, [0xC0#8, 0xF9#8, 0xA4#8, 0xB0#8, 0x99#8, 0x92#8, 0x82#8, 0xF8#8, 0x80#8, 0x90#8][val.toNat]? = some b →
      pos.toNat ≤ 3 →
      ∃ ds, exec (.writeNibble val pos) s = .next { s with ds := ds, results := s.results ++ [.ok] } ∧
        ∀ p : Pos, ds.get p = if p.val = pos.toNat then b else s.ds.get p) ∧
    (9 < val.toNat →
      exec (.writeNibble val pos) s = .next { s with results := s.results ++ [.raised .invalidDigit] } ∧
        (ResultCode.raised .invalidDigit).code = 1#3) ∧
    (val.toNat ≤ 9 → 3 < pos.toNat →
      exec (.writeNibble val pos) s = .next { s with results := s.results ++ [.raised .invalidPosition] } ∧
        (ResultCode.raised .invalidPosition).code = 2#3)

/-- R76, R77, R78: WRITE_WORD stores the patterns of the four decimal digits and returns OK, whatever the order of the
four writes; above 9999 it raises ValueOutOfRange with no other effect; and with `WORD_ORDER` = [3,2,1,0] its byte
steps write the positions 3, 2, 1, 0, also while a later command word waits. -/
def Obligations.WriteWordStoresTheFourDigits : Prop :=
  ∀ (s : State) (n : BitVec 16),
    (encode (.writeWord n)).toNat = 0x20000 + n.toNat ∧
    (s.accepting → n.toNat ≤ 9999 →
      ∀ d3 d2 d1 d0 : Digit, d3.val = n.toNat / 1000 → d2.val = n.toNat % 1000 / 100 →
        d1.val = n.toNat % 100 / 10 → d0.val = n.toNat % 10 →
        n.toNat = 1000 * d3.val + 100 * d2.val + 10 * d1.val + d0.val ∧
        exec (.writeWord n) s =
          .next { s with ds := ⟨enc d0, enc d1, enc d2, enc d3⟩, results := s.results ++ [.ok] }) ∧
    (s.accepting → 9999 < n.toNat →
      exec (.writeWord n) s = .next { s with results := s.results ++ [.raised .valueOutOfRange] } ∧
        (ResultCode.raised .valueOutOfRange).code = 3#3) ∧
    (∀ (m : Fin 10000) (i : Fin 4), s.seq = .idle → s.inputs.head? ≠ some .tick → s.hst = .run (.writeWord m) i →
      s.params.wordOrder = .descending →
      ∃ t, step s = .next t ∧
        (∀ p : Pos, t.ds.get p = if p = 3 - i then enc (digitAt m p) else s.ds.get p) ∧
        (t.hst = if i = 3 then .idle else .run (.writeWord m) (i + 1)) ∧
        (t.results = if i = 3 then s.results ++ [.ok] else s.results) ∧
        t.inputs = s.takePass.inputs ∧
        t = { s.takePass with ds := t.ds, hst := t.hst, results := t.results })

/-- R81, R82: CLEAR stores the blank sentinel at all four positions and returns OK, whatever the order of the four
writes; it is idempotent, leaves the digit store as construction does, and SHOW_ZEROS_LEFT after it leaves position
0 blank; and with `CLEAR_ORDER` = [0,1,2,3] its byte steps blank the positions 0, 1, 2, 3, also while a later command
word waits. -/
def Obligations.ClearBlanksAllPositions : Prop :=
  ∀ (s : State), (encode .clear).toNat = 0x30000 ∧
    (s.accepting → ∃ t, exec .clear s = .next t ∧
      t = { s with ds := ⟨0xFF#8, 0xFF#8, 0xFF#8, 0xFF#8⟩, results := s.results ++ [.ok] } ∧
      (∃ u, exec .clear t = .next u ∧ u.ds = t.ds) ∧
      (∀ a b c, t.ds = (State.construct a b c).ds) ∧
      ∃ u, exec .showZerosLeft t = .next u ∧ u.ds = ⟨0xFF#8, 0xC0#8, 0xC0#8, 0xC0#8⟩) ∧
    (∀ i : Fin 4, s.seq = .idle → s.inputs.head? ≠ some .tick → s.hst = .run .clear i →
      s.params.clearOrder = .ascending →
      ∃ t, step s = .next t ∧
        (∀ p : Pos, t.ds.get p = if p = i then 0xFF#8 else s.ds.get p) ∧
        (t.hst = if i = 3 then .idle else .run .clear (i + 1)) ∧
        (t.results = if i = 3 then s.results ++ [.ok] else s.results) ∧
        t.inputs = s.takePass.inputs ∧
        t = { s.takePass with ds := t.ds, hst := t.hst, results := t.results })

/-- R119, R120: SHOW_ZEROS_LEFT returns OK with 0xC0 at every position of 1..3 that was 0xFF together with all those
above it, and the rest as it was; it is idempotent. -/
def Obligations.ShowZerosReplacesTheLeadingBlanks : Prop :=
  ∀ (s : State), (encode .showZerosLeft).toNat = 0x40000 ∧ (s.accepting →
    ∃ ds, exec .showZerosLeft s = .next { s with ds := ds, results := s.results ++ [.ok] } ∧
      ds.get 0 = s.ds.get 0 ∧
      (∀ q : Pos, 1 ≤ q →
        ((∀ p, q ≤ p → s.ds.get p = 0xFF#8) → ds.get q = 0xC0#8) ∧
        ((∃ p, q ≤ p ∧ s.ds.get p ≠ 0xFF#8) → ds.get q = s.ds.get q)) ∧
      ∃ t, exec .showZerosLeft { s with ds := ds, results := s.results ++ [.ok] } = .next t ∧ t.ds = ds)

/-- R121, R122: HIDE_ZEROS_LEFT returns OK with 0xFF at every position of 1..3 that was 0xC0 together with all those
above it, and the rest as it was; it is idempotent. -/
def Obligations.HideZerosBlanksTheLeadingZeros : Prop :=
  ∀ (s : State), (encode .hideZerosLeft).toNat = 0x50000 ∧ (s.accepting →
    ∃ ds, exec .hideZerosLeft s = .next { s with ds := ds, results := s.results ++ [.ok] } ∧
      ds.get 0 = s.ds.get 0 ∧
      (∀ q : Pos, 1 ≤ q →
        ((∀ p, q ≤ p → s.ds.get p = 0xC0#8) → ds.get q = 0xFF#8) ∧
        ((∃ p, q ≤ p ∧ s.ds.get p ≠ 0xC0#8) → ds.get q = s.ds.get q)) ∧
      ∃ t, exec .hideZerosLeft { s with ds := ds, results := s.results ++ [.ok] } = .next t ∧ t.ds = ds)

/-- R97: UPDATE sends, for each position 0, 1, 2, 3 in turn, the stored pattern and the strobe byte, each most
significant bit first with a low-then-high clock pulse a bit, and a low-then-high latch pulse; it returns OK, and
leaves `SR` 0x00, DATA 0, SHCLK 1, LATCH 1, and all else as it was. -/
def Obligations.UpdateSendsTheFourFrames : Prop :=
  ∀ (s : State), (encode .update).toNat = 0x60000 ∧ (s.accepting →
    exec .update s = .next { s with
      sr := .byte 0x00#8
      data := .low
      shclk := .high
      latch := .high
      results := s.results ++ [.ok]
      trace := s.trace ++ ([0, 1, 2, 3] : List Pos).flatMap fun p =>
        (([7, 6, 5, 4, 3, 2, 1, 0] : List Nat).flatMap fun i =>
          [⟨.data, (s.ds.get p).getLsbD i⟩, ⟨.shclk, false⟩, ⟨.shclk, true⟩]) ++
        (([7, 6, 5, 4, 3, 2, 1, 0] : List Nat).flatMap fun i =>
          [⟨.data, decide (i = p.val)⟩, ⟨.shclk, false⟩, ⟨.shclk, true⟩]) ++
        [⟨.latch, false⟩, ⟨.latch, true⟩] })

/-! ## Frames and results -/

/-- What the five commands on the digit store leave unchanged: everything but the digit store and the result codes;
of the digit store, WRITE_NIBBLE all but `POS`, and the two cascades position 0 (R17, R73, R77, R81, R119, R123). -/
def Obligations.StoreCommandsTouchOnlyTheStore : Prop :=
  ∀ i (s t : State), exec i s = .next t → i ≠ .update →
    t = { s with ds := t.ds, results := t.results } ∧
    (∀ val pos, i = .writeNibble val pos → ∀ p : Pos, p.val ≠ pos.toNat → t.ds.get p = s.ds.get p) ∧
    (i = .showZerosLeft ∨ i = .hideZerosLeft → t.ds.get 0 = s.ds.get 0) ∧
    (i.faultFree = false → t.ds = s.ds)

/-- What UPDATE leaves unchanged: every register of the digit store, both agents' states, the pin binding, the
parameters, what is to arrive, and the trace so far (R97, R101). -/
def Obligations.UpdateTouchesOnlyTheLines : Prop :=
  ∀ (s t : State), exec .update s = .next t →
    (∀ p, t.ds.get p = s.ds.get p) ∧ t.seq = s.seq ∧ t.hst = s.hst ∧ t.cfg = s.cfg ∧ t.params = s.params ∧
      t.inputs = s.inputs ∧ s.trace <+: t.trace

/-- Every command word ends with exactly one result code (R134): OK just when the operands are legal (R64), so the four
operand-less commands always return OK (R139); and no code above 4 is ever returned. -/
def Obligations.EveryCommandReturnsOneResultCode : Prop :=
  ∀ i (s t : State), exec i s = .next t →
    ∃ c : ResultCode, t.results = s.results ++ [c] ∧ (c = .ok ↔ i.faultFree = true) ∧ c.code.toNat ≤ 4 ∧
      (i = .clear ∨ i = .showZerosLeft ∨ i = .hideZerosLeft ∨ i = .update → c = .ok)

/-- R138: a fault is not sticky and does not stop the block, whichever fault it is: of an operand, or of an illegal word,
however the word is sent. The state after it differs by the result code alone; every command after it does what it
would have done without it, but for that code; and a tick after it starts a refresh cycle. -/
def Obligations.FaultIsNotSticky : Prop :=
  (∀ i (s t : State), i.faultFree = false → exec i s = .next t → ∃ f, s.GoesOnAfter f t) ∧
  ∀ (s : State) w rest, s.accepting → FaultingWord w →
    s.inputs = .command w :: rest ∨ s.inputs = .commandStepwise w :: rest →
    ∃ f t, step s = .next t ∧ ({ s with inputs := rest } : State).GoesOnAfter f t ∧
      (∀ e, decode w = .error e → f = .illegalCommand)

/-! ## The transmitter -/

/-- R85, R91: SEND_PATTERN makes exactly the 24 pin events, for i = 7 down to 0, and leaves `SR` = 0x00, SHCLK = 1 and
DATA = b[0] (after the strobe of `p`, 1 if `p` is 0 and 0 otherwise); it touches nothing else. -/
def Obligations.SendPatternMakesTwentyFourEvents : Prop :=
  ∀ (s : State) (b : Byte),
    s.sendPattern b = { s with
      sr := .byte 0x00#8
      data := if b.getLsbD 0 then .high else .low
      shclk := .high
      trace := s.trace ++ ([7, 6, 5, 4, 3, 2, 1, 0] : List Nat).flatMap fun i =>
        [⟨.data, b.getLsbD i⟩, ⟨.shclk, false⟩, ⟨.shclk, true⟩] } ∧
    ∀ p, (s.sendPattern (onehot p)).data = if p = 0 then .high else .low

/-- R86: sampling DATA at each rising edge of SHCLK during SEND_PATTERN gives the bits from 7 down to 0, eight samples,
whatever the levels of the lines were before. -/
def Obligations.SampledBitsAreTheByteMsbFirst : Prop :=
  ∀ (s : State) (b : Byte), ∃ es, (s.sendPattern b).trace = s.trace ++ es ∧
    ∀ w, risingEdges .shclk w es = 8 ∧
      sampledBits w es = ([7, 6, 5, 4, 3, 2, 1, 0] : List Nat).map b.getLsbD

/-- R87: after `j` shifts `SR` is `b * 2^j mod 256`, before the eighth its top bit is `b[7-j]`, and nothing else is
modified. -/
def Obligations.ShiftByteAfterEachShift : Prop :=
  ∀ (s : State) (b : Byte) (j : Nat),
    ∃ v : Byte, State.shiftLeft^[j] (s.loadShift b) = { s with sr := .byte v } ∧ v.toNat = b.toNat * 2 ^ j % 256 ∧
      (j < 8 → v.getLsbD 7 = b.getLsbD (7 - j))

/-! ## The sequencer -/

/-- R104: the start step: `SR <- DS[0]`, `SEQ <- BUSY(0, SEG, 0, D)`, no pin event. A TICK takes it whatever host command
is in progress, and changes nothing else (R145); the UPDATE command word takes it from IDLE, with some `HST`. -/
def Obligations.StartStepLoadsTheFirstPattern : Prop :=
  ∀ (s : State) rest, s.seq = .idle →
    (s.inputs = .tick :: rest →
      step s = .next { s with inputs := rest, sr := .byte (s.ds.get 0), seq := .shift 0 .seg 0 .d }) ∧
    (∀ w, s.hst = .idle → s.inputs = .commandStepwise w :: rest → decode w = .ok .update →
      ∃ h, step s = .next { s with
        inputs := rest, hst := h, sr := .byte (s.ds.get 0), seq := .shift 0 .seg 0 .d })

/-- R105, R106, R108: the data step drives DATA with `SR[7]`, the clock-low step drives SHCLK low, and the latch-low step
drives LATCH low; nothing else changes but `SEQ` (and a `pass` of the environment, which is used up). -/
def Obligations.DataAndLowSteps : Prop :=
  ∀ (s : State) p ph k, s.NoOverrun →
    (s.seq = .shift p ph k .d →
      ∃ b : Byte, (∀ b', s.sr = .byte b' → b = b') ∧
        step s = .next { s.takePass with
          data := if b.getLsbD 7 then .high else .low
          trace := s.trace ++ [⟨.data, b.getLsbD 7⟩]
          seq := .shift p ph k .l }) ∧
    (s.seq = .shift p ph k .l →
      step s = .next { s.takePass with
        shclk := .low
        trace := s.trace ++ [⟨.shclk, false⟩]
        seq := .shift p ph k .h }) ∧
    (s.seq = .latch p .l →
      step s = .next { s.takePass with
        latch := .low
        trace := s.trace ++ [⟨.latch, false⟩]
        seq := .latch p .h })

/-- R107: the clock-high step drives SHCLK high and shifts `SR`; then the next bit, or after the eighth segment bit the
strobe byte is loaded, or after the eighth strobe bit the latch phase begins. -/
def Obligations.ClockHighStep : Prop :=
  ∀ (s : State) p ph k, s.NoOverrun → s.seq = .shift p ph k .h →
    ∃ b : Byte, (∀ b', s.sr = .byte b' → b = b') ∧
    ∃ sr seq, step s = .next { s.takePass with
        shclk := .high, trace := s.trace ++ [⟨.shclk, true⟩], sr := sr, seq := seq } ∧
      (k.val < 7 → sr = .byte (b <<< 1) ∧ seq = .shift p ph (k + 1) .d) ∧
      (k.val = 7 → ph = .seg → sr = .byte (1#8 <<< p.val) ∧ seq = .shift p .stb 0 .d) ∧
      (k.val = 7 → ph = .stb → sr = .byte (b <<< 1) ∧ seq = .latch p .l)

/-- The latch-high step (R109) drives LATCH high, and then frame `p + 1` begins with its pattern loaded, or after frame 3
`SEQ` is IDLE with `SR` as it was. That UPDATE then returns OK just when `HST` is `RUN(UPDATE, i)` is the model's
reading (log 6). -/
def Obligations.LatchHighStep : Prop :=
  ∀ (s : State) p, s.NoOverrun → s.seq = .latch p .h →
    (p.val < 3 →
      step s = .next { s.takePass with
        latch := .high
        trace := s.trace ++ [⟨.latch, true⟩]
        sr := .byte (s.ds.get (p + 1))
        seq := .shift (p + 1) .seg 0 .d }) ∧
    (p.val = 3 →
      (∀ i, s.hst = .run .update i →
        step s = .next { s.takePass with
          latch := .high
          trace := s.trace ++ [⟨.latch, true⟩]
          seq := .idle
          hst := .idle
          results := s.results ++ [.ok] }) ∧
      ((∀ i, s.hst ≠ .run .update i) →
        step s = .next { s.takePass with
          latch := .high, trace := s.trace ++ [⟨.latch, true⟩], seq := .idle }))

/-- R50 (c), R103: while `SEQ` is BUSY, HOST has no step: the digit store, the pin binding and the parameters stay, a
host command in progress stays where it is (an UPDATE may end), and no command word is taken. -/
def Obligations.HostHasNoStepWhileBusy : Prop :=
  ∀ (s t : State), s.seq ≠ .idle → step s = .next t →
    t.ds = s.ds ∧ t.cfg = s.cfg ∧ t.params = s.params ∧
    (t.hst = s.hst ∧ t.results = s.results ∨
      (∃ i, s.hst = .run .update i) ∧ t.seq = .idle ∧ t.hst = .idle ∧ t.results = s.results ++ [.ok]) ∧
    (t.inputs = s.inputs ∨ s.inputs = .pass :: t.inputs)

/-- R171: a refresh cycle that has started finishes: `SEQ` is BUSY until exactly the events still to be made have been
made, one a step, and then IDLE, as long as no TICK arrives meanwhile; the steps use up the passes that arrive. -/
def Obligations.RefreshFinishesInItsTwoHundredSteps : Prop :=
  ∀ (s : State) n, s.seq ≠ .idle → noTickFor n s.inputs = true → n ≤ 200 - s.seq.eventsMade →
    ∃ t, runSteps n s = .next t ∧ t.trace.length = s.trace.length + n ∧ t.inputs = passesUsed n s.inputs ∧
      (t.seq = .idle ↔ n = 200 - s.seq.eventsMade)

/-- R110: from a state with `SEQ` IDLE, a TICK's start step and the 200 steps of R105 to R109 make the same trace
suffix, `SR` and levels as the one-step UPDATE of R97, leave the digit store, and end in `SEQ` IDLE, as long as no
second TICK arrives meanwhile; the steps use up the passes that arrive. The last clause, that the host command in
progress and the result codes are then as before the TICK, has the premise `HostAgrees`: no UPDATE is in progress while
`SEQ` is IDLE, which is the model's choice (log 6). -/
def Obligations.SmallStepsAgreeWithOneStepUpdate : Prop :=
  ∀ (s : State) rest, s.seq = .idle → s.inputs = .tick :: rest → noTickFor 200 rest = true →
    ∃ u t, exec .update { s with inputs := passesUsed 200 rest, hst := .idle } = .next u ∧
      runSteps 201 s = .next t ∧
      t = { u with hst := t.hst, results := t.results } ∧
      (s.HostAgrees → t.hst = s.hst ∧ t.results = s.results)

/-! ## Two agents -/

/-- The two ways a command is taken agree: for every command, legal operands or not, the start and the byte steps (for
UPDATE, the 200 pin events) lead to the state that the whole command leads to in one step, whatever words wait after
it, as long as no TICK arrives; the steps use up the passes that arrive. -/
def Obligations.StepwiseCommandsAgreeWithWholeOnes : Prop :=
  ∀ (s : State) i rest, s.accepting → s.inputs = .commandStepwise (encode i) :: rest → noTickFor 200 rest = true →
    ∃ n t, n ≤ 200 ∧ runSteps (n + 1) s = .next t ∧ exec i { s with inputs := passesUsed n rest } = .next t

/-- R46, R50 (b): HOST's step. While `SEQ` is IDLE, a host command is in progress and no TICK arrives, one step takes a
byte step of that very command, which goes on to its next byte step or ends with OK; nothing of the sequencer or
the lines moves; a `pass` is used up, and a command word that has arrived is left waiting (log 1). The one byte step
of WRITE_NIBBLE stores its pattern. UPDATE has no byte step in R46: that an UPDATE which `HST` records while `SEQ` is IDLE
ends with OK is the model's choice (log 6). -/
def Obligations.HostStepLeavesAWaitingWord : Prop :=
  ∀ (s : State) c i, s.seq = .idle → s.hst = .run c i → s.inputs.head? ≠ some .tick →
    ∃ t, step s = .next t ∧
      (t.hst = .run c (i + 1) ∧ t.results = s.results ∨ t.hst = .idle ∧ t.results = s.results ++ [.ok]) ∧
      t.inputs = s.takePass.inputs ∧
      (∀ rest, s.inputs = .pass :: rest → t.inputs = rest) ∧
      (∀ w rest, s.inputs = .command w :: rest ∨ s.inputs = .commandStepwise w :: rest → t.inputs = s.inputs) ∧
      t = { s.takePass with ds := t.ds, hst := t.hst, results := t.results } ∧
      (∀ d p, c = .writeNibble d p →
        t.hst = .idle ∧ ∀ q : Pos, t.ds.get q = if q = p then enc d else s.ds.get q)

/-- R46: the byte steps of the two cascades. A test-and-replace of position 3, 2 or 1 replaces the pattern it tests for
and goes on to the next position, and ends the command where the pattern differs or position 1 is done, also while
a later command word waits. -/
def Obligations.CascadeByteSteps : Prop :=
  ∀ (s : State) c (old new : Byte) (i : Fin 4), s.seq = .idle → s.inputs.head? ≠ some .tick →
    s.hst = .run c i → i.val < 3 →
    (c = .showZerosLeft ∧ old = 0xFF#8 ∧ new = 0xC0#8 ∨ c = .hideZerosLeft ∧ old = 0xC0#8 ∧ new = 0xFF#8) →
    ∃ t, step s = .next t ∧
      (∀ p : Pos, t.ds.get p = if p = 3 - i ∧ s.ds.get p = old then new else s.ds.get p) ∧
      (s.ds.get (3 - i) = old → i.val < 2 → t.hst = .run c (i + 1) ∧ t.results = s.results) ∧
      (s.ds.get (3 - i) ≠ old ∨ i.val = 2 → t.hst = .idle ∧ t.results = s.results ++ [.ok]) ∧
      t.inputs = s.takePass.inputs ∧
      t = { s.takePass with ds := t.ds, hst := t.hst, results := t.results }

/-- R80: a TICK after `k` of the four byte steps of WRITE_WORD, in the order 3, 2, 1, 0, transmits the new pattern at
the `k` positions already written and the old one at the others, and the final state is, but for that refresh cycle,
the one without the TICK. No second TICK arrives before the end; the steps use up the passes that arrive. -/
def Obligations.TornWordIsTransmittedAndThenCompleted : Prop :=
  ∀ (s : State) (n : BitVec 16) (k : Nat) rest, n.toNat ≤ 9999 → k ≤ 4 → s.accepting →
    s.params.wordOrder = .descending →
    s.inputs = .commandStepwise (encode (.writeWord n)) :: (List.replicate k .pass ++ .tick :: rest) →
    noTickFor (204 - k) rest = true →
    ∃ t u torn, exec (.writeWord n) { s with inputs := passesUsed (204 - k) rest } = .next t ∧
      (∀ p : Pos, torn.get p = if 4 ≤ p.val + k then t.ds.get p else s.ds.get p) ∧
      runSteps 206 s = .next u ∧
      u = { t with
        trace := s.trace ++ cycleEvents torn
        sr := .byte 0x00#8
        data := .low
        shclk := .high
        latch := .high }

/-! ## The wire and the display -/

/-- R99: one refresh cycle has 200 pin events (64 on DATA, 128 on SHCLK, 8 on LATCH), 64 bits and 8 bytes, 64 rising
edges on SHCLK and 4 on LATCH, whatever the levels of the lines were before (R29). -/
def Obligations.RefreshCycleCounts : Prop :=
  ∀ (s t : State), exec .update s = .next t → ∃ es, t.trace = s.trace ++ es ∧ es.length = 200 ∧
    es.countP (fun e => e.line = .data) = 64 ∧ es.countP (fun e => e.line = .shclk) = 128 ∧
    es.countP (fun e => e.line = .latch) = 8 ∧
    ∀ w, risingEdges .shclk w es = 64 ∧ risingEdges .latch w es = 4 ∧ (sampledBits w es).length = 64 ∧
      (frameTrace w es).countP (fun f => f ≠ .lo ∧ f ≠ .hi) = 8

/-- R111: the frame trace of one refresh cycle is the sixteen items, for every digit store. -/
def Obligations.FrameTraceOfARefreshCycle : Prop :=
  ∀ (s t : State), exec .update s = .next t → ∃ es, t.trace = s.trace ++ es ∧
    ∀ w, frameTrace w es =
      [.byte (s.ds.get 0), .byte 0x01#8, .lo, .hi, .byte (s.ds.get 1), .byte 0x02#8, .lo, .hi,
       .byte (s.ds.get 2), .byte 0x04#8, .lo, .hi, .byte (s.ds.get 3), .byte 0x08#8, .lo, .hi]

/-- R100, R114, R115, R116: whatever the reference receiver held, after the latch pulse of frame `p` its outputs are the
pattern above the strobe byte, so that segment line `j` is lit just when bit `j` of the pattern is 0 and exactly the
select line `p` is active; and a cycle is the four frames. -/
def Obligations.ReceiverShowsTheFrameAfterItsLatchPulse : Prop :=
  (∀ (r : Receiver) (b : Byte) (p : Pos),
    (r.run (frameEvents b p)).out = b ++ onehot p ∧
    (∀ j : Fin 8, (r.run (frameEvents b p)).lit j = !b.getLsbD j.val) ∧
    (∀ q : Pos, (r.run (frameEvents b p)).selected q = decide (q = p)) ∧
    (∀ j, 4 ≤ j → j < 8 → (r.run (frameEvents b p)).out.getLsbD j = false)) ∧
  ∀ (s t : State), exec .update s = .next t →
    t.trace = s.trace ++ ([0, 1, 2, 3] : List Pos).flatMap fun p => frameEvents (s.ds.get p) p

/-- R117: from one latch rising edge to the next the display does not change: while a frame is sent, and until the last
of its 50 events, the receiver's outputs stay what the frame before left. -/
def Obligations.DisplayHoldsUntilTheNextLatchPulse : Prop :=
  ∀ (r : Receiver) (b : Byte) (p : Pos) (n : Nat), n < 50 → (r.run ((frameEvents b p).take n)).out = r.out

/-- R28, R94, R152: outside a refresh cycle nothing moves the lines: a step from `SEQ` IDLE makes no pin event and leaves
the levels, unless it runs a whole UPDATE. -/
def Obligations.OnlyARefreshMovesTheLines : Prop :=
  ∀ (s t : State), s.seq = .idle → step s = .next t →
    t.trace = s.trace ∧ (∀ l, t.level l = s.level l) ∨
      s.accepting ∧ ∃ w rest, s.inputs = .command w :: rest ∧ decode w = .ok .update

/-- R30: the trace only grows, and by at most one pin event a step, unless the step runs a whole UPDATE. -/
def Obligations.TraceOnlyGrows : Prop :=
  ∀ (s t : State), step s = .next t → ∃ es, t.trace = s.trace ++ es ∧
    (es.length ≤ 1 ∨ es.length = 200 ∧ ∃ w rest, s.inputs = .command w :: rest ∧ decode w = .ok .update)

/-! ## Leading zeros -/

/-- R128: hiding undoes showing just when the first of the positions 3, 2, 1 that is not 0xFF is not 0xC0 either, or
there is none. -/
def Obligations.HideUndoesShowExactlyWhen : Prop :=
  ∀ (s : State), s.accepting → ∃ t u, exec .showZerosLeft s = .next t ∧ exec .hideZerosLeft t = .next u ∧
    (u.ds = s.ds ↔ ∀ q : Pos, 1 ≤ q → (∀ p, q < p → s.ds.get p = 0xFF#8) → s.ds.get q ≠ 0xFF#8 →
      s.ds.get q ≠ 0xC0#8)

/-- R129: showing undoes hiding just when the first of the positions 3, 2, 1 that is not 0xC0 is not 0xFF either, or
there is none; in particular after a completed WRITE_WORD. -/
def Obligations.ShowUndoesHideExactlyWhen : Prop :=
  (∀ (s : State), s.accepting → ∃ t u, exec .hideZerosLeft s = .next t ∧ exec .showZerosLeft t = .next u ∧
    (u.ds = s.ds ↔ ∀ q : Pos, 1 ≤ q → (∀ p, q < p → s.ds.get p = 0xC0#8) → s.ds.get q ≠ 0xC0#8 →
      s.ds.get q ≠ 0xFF#8)) ∧
  ∀ (s : State) (n : BitVec 16), s.accepting → n.toNat ≤ 9999 →
    ∃ t u v, exec (.writeWord n) s = .next t ∧ exec .hideZerosLeft t = .next u ∧
      exec .showZerosLeft u = .next v ∧ v.ds = t.ds

/-- R130: hiding the leading zeros of a written word blanks exactly the positions `q` of 1..3 with `n < 10^q`; showing
brings the word back, and hiding again the hidden word. -/
def Obligations.WrittenWordsLeadingZerosHideAndShow : Prop :=
  ∀ (s : State) (n : BitVec 16), s.accepting → n.toNat ≤ 9999 →
    ∃ w h v h', exec (.writeWord n) s = .next w ∧ exec .hideZerosLeft w = .next h ∧
      exec .showZerosLeft h = .next v ∧ exec .hideZerosLeft v = .next h' ∧
      (∀ q : Pos, (h.ds.get q = 0xFF#8 ↔ 1 ≤ q.val ∧ n.toNat < 10 ^ q.val) ∧
        (h.ds.get q ≠ 0xFF#8 → h.ds.get q = w.ds.get q)) ∧
      v.ds = w.ds ∧ h'.ds = h.ds

/-- R79: after WRITE_WORD the inverse table reads the decimal digits of the number back from the four positions, units
first; none is blank, whatever was there before. -/
def Obligations.WrittenWordReadsBackAsItsDigits : Prop :=
  ∀ (s : State) (n : BitVec 16), s.accepting → n.toNat ≤ 9999 →
    ∃ t, exec (.writeWord n) s = .next t ∧
      (∃ d0 d1 d2 d3 : Digit,
        encInverse (t.ds.get 0) = some d0 ∧ encInverse (t.ds.get 1) = some d1 ∧
        encInverse (t.ds.get 2) = some d2 ∧ encInverse (t.ds.get 3) = some d3 ∧
        n.toNat = d0.val + 10 * d1.val + 100 * d2.val + 1000 * d3.val) ∧
      (∀ p, t.ds.get p ≠ 0xFF#8)

/-- R125: the state of each position after each command, from legal patterns: SHOW_ZEROS_LEFT takes BLANK to ZERO_SHOWN
under blanks, HIDE_ZEROS_LEFT takes ZERO_SHOWN to BLANK under zeros, and in every other case they, and UPDATE, leave
it; a stored digit is ZERO_SHOWN or NONZERO_SHOWN by its value, and CLEAR and reset make every position BLANK. -/
def Obligations.PositionStateTransitions : Prop :=
  ∀ i (s t : State), s.ds.Legal → exec i s = .next t → i.faultFree = true → ∀ q : Pos,
    (i = .showZerosLeft → posState (t.ds.get q) =
      if 1 ≤ q ∧ ∀ p, q ≤ p → posState (s.ds.get p) = some .blank then some .zeroShown else posState (s.ds.get q)) ∧
    (i = .hideZerosLeft → posState (t.ds.get q) =
      if 1 ≤ q ∧ ∀ p, q ≤ p → posState (s.ds.get p) = some .zeroShown then some .blank else posState (s.ds.get q)) ∧
    (∀ val pos, i = .writeNibble val pos → posState (t.ds.get q) =
      if q.val ≠ pos.toNat then posState (s.ds.get q)
      else if val.toNat = 0 then some .zeroShown else some .nonzeroShown) ∧
    (∀ n, i = .writeWord n → posState (t.ds.get q) =
      if n.toNat / 10 ^ q.val % 10 = 0 then some .zeroShown else some .nonzeroShown) ∧
    (i = .clear → posState (t.ds.get q) = some .blank) ∧
    (i = .update → posState (t.ds.get q) = posState (s.ds.get q)) ∧
    (posState (t.ds.get q)).isSome = true ∧
    ∀ a b c, posState ((State.construct a b c).ds.get q) = some .blank

/-! ## Invariants -/

/-- R19: every register of the digit store holds one of the eleven values at reset, and every step keeps that. -/
def Obligations.EveryStepKeepsThePatternsLegal : Prop :=
  ∀ eleven : List Byte, eleven =
    [0xFF#8, 0xC0#8, 0xF9#8, 0xA4#8, 0xB0#8, 0x99#8, 0x92#8, 0x82#8, 0xF8#8, 0x80#8, 0x90#8] →
  (∀ a b c p, (State.construct a b c).ds.get p ∈ eleven) ∧
  ∀ (s t : State), (∀ p, s.ds.get p ∈ eleven) → step s = .next t → ∀ p, t.ds.get p ∈ eleven

/-- R33: the pin binding is constant after construction; so are the model's write orders (log 4). -/
def Obligations.PinBindingNeverChanges : Prop :=
  ∀ (s t : State), step s = .next t → t.cfg = s.cfg ∧ t.params = s.params

/-- Every step keeps the invariant of the block: legal patterns, a host state its command has, a shift byte and line
levels that agree with `SEQ` and the trace, and the wire protocol: a trace of whole refresh cycles over legal stores
and a part of one. Its clause about UPDATE in `HST` (`RUN(UPDATE, i)` only while `SEQ` is BUSY) is the model's choice
(log 6). -/
def Obligations.EveryStepKeepsTheBlockInvariant : Prop :=
  ∀ (s t : State), s.Inv → step s = .next t → t.Inv
end

