-- ==== Sys2Proof/Laws/State.lean ====
section
/-! SUPPORT. The fields of a state after each named update: one lemma a field, true by `rfl`. -/

namespace Sys2Proof.Machine

variable (s : State) (p : Pos) (v : Byte) (f : CommandFault) (l : Line) (b : Bool)

/-! ## writeDigit: the digit store alone -/

@[simp] theorem writeDigit_ds : (s.writeDigit p v).ds = s.ds.set p v := rfl
@[simp] theorem writeDigit_sr : (s.writeDigit p v).sr = s.sr := rfl
@[simp] theorem writeDigit_seq : (s.writeDigit p v).seq = s.seq := rfl
@[simp] theorem writeDigit_hst : (s.writeDigit p v).hst = s.hst := rfl
@[simp] theorem writeDigit_data : (s.writeDigit p v).data = s.data := rfl
@[simp] theorem writeDigit_shclk : (s.writeDigit p v).shclk = s.shclk := rfl
@[simp] theorem writeDigit_latch : (s.writeDigit p v).latch = s.latch := rfl
@[simp] theorem writeDigit_trace : (s.writeDigit p v).trace = s.trace := rfl
@[simp] theorem writeDigit_cfg : (s.writeDigit p v).cfg = s.cfg := rfl
@[simp] theorem writeDigit_params : (s.writeDigit p v).params = s.params := rfl
@[simp] theorem writeDigit_results : (s.writeDigit p v).results = s.results := rfl
@[simp] theorem writeDigit_inputs : (s.writeDigit p v).inputs = s.inputs := rfl

/-! ## returnOk, raiseFault: the result codes alone -/

@[simp] theorem returnOk_ds : s.returnOk.ds = s.ds := rfl
@[simp] theorem returnOk_sr : s.returnOk.sr = s.sr := rfl
@[simp] theorem returnOk_seq : s.returnOk.seq = s.seq := rfl
@[simp] theorem returnOk_hst : s.returnOk.hst = s.hst := rfl
@[simp] theorem returnOk_data : s.returnOk.data = s.data := rfl
@[simp] theorem returnOk_shclk : s.returnOk.shclk = s.shclk := rfl
@[simp] theorem returnOk_latch : s.returnOk.latch = s.latch := rfl
@[simp] theorem returnOk_trace : s.returnOk.trace = s.trace := rfl
@[simp] theorem returnOk_cfg : s.returnOk.cfg = s.cfg := rfl
@[simp] theorem returnOk_params : s.returnOk.params = s.params := rfl
@[simp] theorem returnOk_results : s.returnOk.results = s.results ++ [.ok] := rfl
@[simp] theorem returnOk_inputs : s.returnOk.inputs = s.inputs := rfl

@[simp] theorem raiseFault_ds : (s.raiseFault f).ds = s.ds := rfl
@[simp] theorem raiseFault_sr : (s.raiseFault f).sr = s.sr := rfl
@[simp] theorem raiseFault_seq : (s.raiseFault f).seq = s.seq := rfl
@[simp] theorem raiseFault_hst : (s.raiseFault f).hst = s.hst := rfl
@[simp] theorem raiseFault_data : (s.raiseFault f).data = s.data := rfl
@[simp] theorem raiseFault_shclk : (s.raiseFault f).shclk = s.shclk := rfl
@[simp] theorem raiseFault_latch : (s.raiseFault f).latch = s.latch := rfl
@[simp] theorem raiseFault_trace : (s.raiseFault f).trace = s.trace := rfl
@[simp] theorem raiseFault_cfg : (s.raiseFault f).cfg = s.cfg := rfl
@[simp] theorem raiseFault_params : (s.raiseFault f).params = s.params := rfl
@[simp] theorem raiseFault_results : (s.raiseFault f).results = s.results ++ [.raised f] := rfl
@[simp] theorem raiseFault_inputs : (s.raiseFault f).inputs = s.inputs := rfl

/-! ## drive: one line and the trace -/

@[simp] theorem drive_ds : (s.drive l b).ds = s.ds := by cases l <;> rfl
@[simp] theorem drive_sr : (s.drive l b).sr = s.sr := by cases l <;> rfl
@[simp] theorem drive_seq : (s.drive l b).seq = s.seq := by cases l <;> rfl
@[simp] theorem drive_hst : (s.drive l b).hst = s.hst := by cases l <;> rfl
@[simp] theorem drive_trace : (s.drive l b).trace = s.trace ++ [⟨l, b⟩] := by cases l <;> rfl
@[simp] theorem drive_cfg : (s.drive l b).cfg = s.cfg := by cases l <;> rfl
@[simp] theorem drive_params : (s.drive l b).params = s.params := by cases l <;> rfl
@[simp] theorem drive_results : (s.drive l b).results = s.results := by cases l <;> rfl
@[simp] theorem drive_inputs : (s.drive l b).inputs = s.inputs := by cases l <;> rfl

/-- A pin event gives its own line its level and leaves the other two. -/
@[simp] theorem drive_level (m : Line) :
    (s.drive l b).level m = if m = l then Level.of b else s.level m := by
  cases l <;> cases m <;> rfl

/-! ## loadShift, shiftLeft: the shift byte alone -/

@[simp] theorem loadShift_sr : (s.loadShift v).sr = .byte v := rfl
@[simp] theorem loadShift_ds : (s.loadShift v).ds = s.ds := rfl
@[simp] theorem loadShift_seq : (s.loadShift v).seq = s.seq := rfl
@[simp] theorem loadShift_hst : (s.loadShift v).hst = s.hst := rfl
@[simp] theorem loadShift_data : (s.loadShift v).data = s.data := rfl
@[simp] theorem loadShift_shclk : (s.loadShift v).shclk = s.shclk := rfl
@[simp] theorem loadShift_latch : (s.loadShift v).latch = s.latch := rfl
@[simp] theorem loadShift_trace : (s.loadShift v).trace = s.trace := rfl
@[simp] theorem loadShift_cfg : (s.loadShift v).cfg = s.cfg := rfl
@[simp] theorem loadShift_params : (s.loadShift v).params = s.params := rfl
@[simp] theorem loadShift_results : (s.loadShift v).results = s.results := rfl
@[simp] theorem loadShift_inputs : (s.loadShift v).inputs = s.inputs := rfl

@[simp] theorem shiftLeft_sr : s.shiftLeft.sr = .byte (s.sr.bits <<< 1) := rfl
@[simp] theorem shiftLeft_ds : s.shiftLeft.ds = s.ds := rfl
@[simp] theorem shiftLeft_seq : s.shiftLeft.seq = s.seq := rfl
@[simp] theorem shiftLeft_hst : s.shiftLeft.hst = s.hst := rfl
@[simp] theorem shiftLeft_data : s.shiftLeft.data = s.data := rfl
@[simp] theorem shiftLeft_shclk : s.shiftLeft.shclk = s.shclk := rfl
@[simp] theorem shiftLeft_latch : s.shiftLeft.latch = s.latch := rfl
@[simp] theorem shiftLeft_trace : s.shiftLeft.trace = s.trace := rfl
@[simp] theorem shiftLeft_cfg : s.shiftLeft.cfg = s.cfg := rfl
@[simp] theorem shiftLeft_params : s.shiftLeft.params = s.params := rfl
@[simp] theorem shiftLeft_results : s.shiftLeft.results = s.results := rfl
@[simp] theorem shiftLeft_inputs : s.shiftLeft.inputs = s.inputs := rfl

/-! ## finishCommand, nextByteStep, startRefresh -/

@[simp] theorem finishCommand_ds : s.finishCommand.ds = s.ds := rfl
@[simp] theorem finishCommand_sr : s.finishCommand.sr = s.sr := rfl
@[simp] theorem finishCommand_seq : s.finishCommand.seq = s.seq := rfl
@[simp] theorem finishCommand_hst : s.finishCommand.hst = .idle := rfl
@[simp] theorem finishCommand_data : s.finishCommand.data = s.data := rfl
@[simp] theorem finishCommand_shclk : s.finishCommand.shclk = s.shclk := rfl
@[simp] theorem finishCommand_latch : s.finishCommand.latch = s.latch := rfl
@[simp] theorem finishCommand_trace : s.finishCommand.trace = s.trace := rfl
@[simp] theorem finishCommand_cfg : s.finishCommand.cfg = s.cfg := rfl
@[simp] theorem finishCommand_params : s.finishCommand.params = s.params := rfl
@[simp] theorem finishCommand_results : s.finishCommand.results = s.results ++ [.ok] := rfl
@[simp] theorem finishCommand_inputs : s.finishCommand.inputs = s.inputs := rfl

variable (c : Command) (i : Fin 4)

@[simp] theorem nextByteStep_hst : (s.nextByteStep c i).hst = .run c (i + 1) := rfl
@[simp] theorem nextByteStep_ds : (s.nextByteStep c i).ds = s.ds := rfl
@[simp] theorem nextByteStep_sr : (s.nextByteStep c i).sr = s.sr := rfl
@[simp] theorem nextByteStep_seq : (s.nextByteStep c i).seq = s.seq := rfl
@[simp] theorem nextByteStep_data : (s.nextByteStep c i).data = s.data := rfl
@[simp] theorem nextByteStep_shclk : (s.nextByteStep c i).shclk = s.shclk := rfl
@[simp] theorem nextByteStep_latch : (s.nextByteStep c i).latch = s.latch := rfl
@[simp] theorem nextByteStep_trace : (s.nextByteStep c i).trace = s.trace := rfl
@[simp] theorem nextByteStep_cfg : (s.nextByteStep c i).cfg = s.cfg := rfl
@[simp] theorem nextByteStep_params : (s.nextByteStep c i).params = s.params := rfl
@[simp] theorem nextByteStep_results : (s.nextByteStep c i).results = s.results := rfl
@[simp] theorem nextByteStep_inputs : (s.nextByteStep c i).inputs = s.inputs := rfl

@[simp] theorem startRefresh_sr : s.startRefresh.sr = .byte s.ds.d0 := rfl
@[simp] theorem startRefresh_seq : s.startRefresh.seq = .shift 0 .seg 0 .d := rfl
@[simp] theorem startRefresh_ds : s.startRefresh.ds = s.ds := rfl
@[simp] theorem startRefresh_hst : s.startRefresh.hst = s.hst := rfl
@[simp] theorem startRefresh_data : s.startRefresh.data = s.data := rfl
@[simp] theorem startRefresh_shclk : s.startRefresh.shclk = s.shclk := rfl
@[simp] theorem startRefresh_latch : s.startRefresh.latch = s.latch := rfl
@[simp] theorem startRefresh_trace : s.startRefresh.trace = s.trace := rfl
@[simp] theorem startRefresh_cfg : s.startRefresh.cfg = s.cfg := rfl
@[simp] theorem startRefresh_params : s.startRefresh.params = s.params := rfl
@[simp] theorem startRefresh_results : s.startRefresh.results = s.results := rfl
@[simp] theorem startRefresh_inputs : s.startRefresh.inputs = s.inputs := rfl

end Sys2Proof.Machine
end

