-- ==== Sys2Proof/Laws/DigitStore.lean ====
section
/-! SUPPORT. The digit store: read after write (spec/10_state.md R17), what a write order does whatever the order
(spec/20_memory.md R46), what a cascade does, and that every operation keeps the patterns legal (R19). -/

namespace Sys2Proof.Machine

/-- Read after write, and every other register is left alone (R17). -/
@[simp] theorem get_set (ds : DigitStore) (p q : Pos) (v : Byte) :
    (ds.set p v).get q = if q = p then v else ds.get q := by
  fin_cases p <;> fin_cases q <;> rfl

/-- Two digit stores with the same four registers are the same. -/
theorem digitStore_ext {a b : DigitStore} (h : ∀ p, a.get p = b.get p) : a = b := by
  cases a; cases b
  have h0 := h 0; have h1 := h 1; have h2 := h 2; have h3 := h 3
  simp only [DigitStore.get] at h0 h1 h2 h3
  subst h0 h1 h2 h3; rfl

/-- A write order reaches every position. -/
theorem writeOrder_covers (o : WriteOrder) (p : Pos) :
    p = o.first ∨ p = o.second ∨ p = o.third ∨ p = o.fourth := by
  obtain ⟨a, b, c, d, h⟩ := o
  revert a b c d p
  decide

/-- Whatever the order of the four writes, position `p` ends with `v p` (R46). -/
theorem setAll_get (ds : DigitStore) (o : WriteOrder) (v : Pos → Byte) (p : Pos) : (ds.setAll o v).get p = v p := by
  simp only [DigitStore.setAll, get_set]
  rcases writeOrder_covers o p with h | h | h | h <;> subst h <;> split_ifs <;> simp_all

/-- A write of all four positions gives the same digit store in every order. -/
theorem setAll_eq (ds : DigitStore) (o : WriteOrder) (v : Pos → Byte) : ds.setAll o v = ⟨v 0, v 1, v 2, v 3⟩ :=
  digitStore_ext fun p => by rw [setAll_get]; fin_cases p <;> rfl

/-- What a cascade leaves at each position: `new` where the position is not 0 and it and every one above it held
`old`, and what was there otherwise. -/
theorem cascade_get (ds : DigitStore) (old new : Byte) (p : Pos) :
    (ds.cascade old new).get p = if p ≠ 0 ∧ ∀ q, p ≤ q → ds.get q = old then new else ds.get p := by
  simp only [DigitStore.cascade, holds, decide_eq_true_eq]
  fin_cases p <;> simp [Fin.forall_fin_succ] <;> split_ifs <;> simp_all

/-- A cascade run twice does nothing the second time, if the two patterns differ (R120 (d), R122 (e)). -/
theorem cascade_idempotent (ds : DigitStore) {old new : Byte} (h : old ≠ new) :
    (ds.cascade old new).cascade old new = ds.cascade old new := by
  refine digitStore_ext fun p => ?_
  rw [cascade_get]
  split
  · next hp =>
    have h3 := hp.2 3 (Fin.le_last p)
    rw [cascade_get] at h3
    split at h3
    · exact absurd h3.symm h
    · next hn =>
      refine absurd ⟨by decide, fun q hq => ?_⟩ hn
      obtain rfl : q = 3 := Fin.last_le_iff.mp hq
      exact h3
  · rfl

theorem legal_enc (d : Digit) : LegalPattern (enc d) := .inr ⟨d, rfl⟩

theorem legal_blank : LegalPattern Config.blank := .inl rfl

theorem legal_zero : LegalPattern Config.zero := .inr ⟨0, rfl⟩

/-- Writing a legal pattern keeps every pattern legal (R19). -/
theorem legal_set {ds : DigitStore} (h : ds.Legal) (p : Pos) {v : Byte} (hv : LegalPattern v) :
    (ds.set p v).Legal := by
  intro q
  rw [get_set]
  split
  · exact hv
  · exact h q

/-- A write of legal patterns to every position leaves them. -/
theorem legal_setAll (ds : DigitStore) (o : WriteOrder) {v : Pos → Byte} (hv : ∀ p, LegalPattern (v p)) :
    (ds.setAll o v).Legal := by
  intro p
  rw [setAll_get]
  exact hv p

/-- A cascade to a legal pattern keeps every pattern legal (R19). -/
theorem legal_cascade {ds : DigitStore} (h : ds.Legal) (old : Byte) {new : Byte} (hn : LegalPattern new) :
    (ds.cascade old new).Legal := by
  intro p
  rw [cascade_get]
  split
  · exact hn
  · exact h p

end Sys2Proof.Machine
end

