-- ==== Sys2Proof/Laws/Wire.lean ====
section
/-! SUPPORT. What the transmitter's operations do to the state, once and for all: the pin events they make and the
levels and shift byte they leave (spec/42_serial_transmitter.md R85, R91; spec/43_multiplex_refresh.md R98). -/

namespace Sys2Proof.Machine

/-- SEND_PATTERN: 24 pin events, `SR` 0x00, DATA at bit 0, SHCLK high, and nothing else (R85, R91). -/
theorem sendPattern_eq (s : State) (b : Byte) :
    s.sendPattern b =
      { s with
        sr := .byte 0
        data := Level.of (b.getLsbD 0)
        shclk := .high
        trace := s.trace ++ patternEvents b } := by
  have gone : b <<< 8 = 0#8 := by revert b; decide
  simp [State.sendPattern, State.sendBits, State.driveTopBit, State.clockPulse, State.shiftLeft, State.drive,
    State.loadShift, ShiftByte.bits, patternEvents, bitEvents, Level.of, ← BitVec.shiftLeft_add, gone,
    BitVec.msb, BitVec.getMsbD]

/-- LATCH_PULSE: two pin events, LATCH high, and nothing else (R96). -/
theorem latchPulse_eq (s : State) :
    s.latchPulse = { s with latch := .high, trace := s.trace ++ latchEvents } := by
  simp [State.latchPulse, State.drive, latchEvents, Level.of]

/-- Frame `p` and its latch pulse: 50 pin events (R98), and the levels they leave (R91, R96). -/
theorem sendFrame_eq (s : State) (p : Pos) :
    s.sendFrame p =
      { s with
        sr := .byte 0
        data := Level.of (p = 0)
        shclk := .high
        latch := .high
        trace := s.trace ++ frameEvents (s.ds.get p) p } := by
  have h : (onehot p)[0] = decide (p = 0) := by fin_cases p <;> rfl
  simp [State.sendFrame, sendPattern_eq, latchPulse_eq, frameEvents, h]

/-- A refresh cycle: 200 pin events, and the levels and shift byte it leaves (R26, R28, R97). -/
theorem refreshCycle_eq (s : State) :
    s.refreshCycle =
      { s with
        sr := .byte 0
        data := .low
        shclk := .high
        latch := .high
        trace := s.trace ++ cycleEvents s.ds } := by
  simp [State.refreshCycle, sendFrame_eq, cycleEvents, DigitStore.get, Level.of]

theorem patternEvents_length (b : Byte) : (patternEvents b).length = 24 := by
  simp [patternEvents, bitEvents]

theorem frameEvents_length (b : Byte) (p : Pos) : (frameEvents b p).length = 50 := by
  simp [frameEvents, patternEvents_length, latchEvents]

theorem cycleEvents_length (ds : DigitStore) : (cycleEvents ds).length = 200 := by
  simp [cycleEvents, frameEvents_length]

end Sys2Proof.Machine
end

