-- ==== Sys2Proof/Laws/Step.lean ====
section
/-! SUPPORT. When a meaning answers, what each step does by the agent that moves, and the inversion of `step`: a next
state comes from one of these and nothing else. -/

namespace Sys2Proof.Machine

/-! ## The meanings -/

theorem ifAccepting_next {s n : State} (h : s.accepting) : s.ifAccepting n = .next n := if_pos h

theorem ifAccepting_refused {s n : State} (h : ¬ s.accepting) : s.ifAccepting n = .refused .notAccepted := if_neg h

/-- A meaning answers a next state only where the block accepts command words, and then its own. -/
theorem ifAccepting_eq_next {s n t : State} : s.ifAccepting n = .next t ↔ s.accepting ∧ t = n := by
  unfold State.ifAccepting
  split
  · next h =>
    rw [Host.Outcome.next.injEq]
    exact ⟨fun e => ⟨h, e.symm⟩, fun e => e.2.symm⟩
  · next h => simp [h]

/-- The state a command leaves where it is accepted: its operands are checked, then its effect and result code. -/
def outcomeOf (i : Instr) (s : State) : State :=
  match checkOperands i with
  | .error f => s.raiseFault f
  | .ok (.writeNibble d p) => (s.writeDigit p (enc d)).returnOk
  | .ok (.writeWord n) => (s.writeAll s.params.wordOrder fun p => enc (digitAt n p)).returnOk
  | .ok .clear => (s.writeAll s.params.clearOrder fun _ => Config.blank).returnOk
  | .ok .showZerosLeft => (s.cascade Config.blank Config.zero).returnOk
  | .ok .hideZerosLeft => (s.cascade Config.zero Config.blank).returnOk
  | .ok .update => s.refreshCycle.returnOk

/-- Every meaning is its outcome, where the block accepts command words. -/
theorem exec_eq (i : Instr) (s : State) : exec i s = s.ifAccepting (outcomeOf i s) := by
  cases i with
  | writeNibble val pos =>
    simp only [exec, execWriteNibble, outcomeOf, checkOperands]
    cases checkNibble val pos <;> rfl
  | writeWord n =>
    simp only [exec, execWriteWord, outcomeOf, checkOperands]
    cases checkWord n <;> rfl
  | clear => rfl
  | showZerosLeft => rfl
  | hideZerosLeft => rfl
  | update => rfl

/-- A meaning that answers `t` was run where the block accepts, and `t` is its outcome. -/
theorem exec_eq_next {i : Instr} {s t : State} : exec i s = .next t ↔ s.accepting ∧ t = outcomeOf i s := by
  rw [exec_eq, ifAccepting_eq_next]

/-- The operand check passes just on the fault-free commands (spec/30_encoding.md R64). -/
theorem checkOperands_ok_iff (i : Instr) : (∃ c, checkOperands i = .ok c) ↔ i.faultFree = true := by
  cases i with
  | writeNibble val pos =>
    simp only [checkOperands, checkNibble, Instr.faultFree, Bool.and_eq_true, decide_eq_true_eq]
    split_ifs <;> simp [Except.map] <;> omega
  | writeWord n =>
    simp only [checkOperands, checkWord, Instr.faultFree]
    split_ifs with h
    · exact ⟨fun _ => decide_eq_true (Nat.le_of_lt_succ h), fun _ => ⟨_, rfl⟩⟩
    · exact ⟨fun ⟨_, e⟩ => (nomatch e), fun e => absurd (Nat.lt_succ_of_le (of_decide_eq_true e)) h⟩
  | _ => simp [checkOperands, Instr.faultFree]

/-! ## The step, by the agent that moves -/

theorem step_of_overrun {s : State} (h : s.seq ≠ .idle) (ht : s.inputs.head? = some .tick) :
    step s = .fault .overrun := by
  obtain ⟨rest, hr⟩ : ∃ rest, s.inputs = .tick :: rest := by
    cases hi : s.inputs <;> simp_all
  cases hs : s.seq <;> simp_all [step, activity]

theorem step_of_busy {s : State} (h : s.seq ≠ .idle) (hn : s.inputs.head? ≠ some .tick) :
    step s = .next (seqStep s.takePass) := by
  cases hs : s.seq with
  | idle => exact absurd hs h
  | _ =>
    cases hi : s.inputs with
    | nil => simp [step, activity, hs, hi]
    | cons a rest => cases a <;> simp_all [step, activity]

theorem step_of_tick {s : State} {rest : List Input} (h : s.seq = .idle) (hi : s.inputs = .tick :: rest) :
    step s = .next ({ s with inputs := rest } : State).startRefresh := by
  simp [step, activity, h, hi, State.takeInput]

theorem step_of_command {s : State} {w : CommandWord} {rest : List Input} (h : s.accepting)
    (hi : s.inputs = .command w :: rest) :
    step s = match decode w with
      | .ok i => exec i { s with inputs := rest }
      | .error _ => .next (({ s with inputs := rest } : State).raiseFault .illegalCommand) := by
  cases hd : decode w <;> simp [step, activity, h.1, h.2, hi, State.takeInput, hd]

theorem step_of_stepwise {s : State} {w : CommandWord} {rest : List Input} (h : s.accepting)
    (hi : s.inputs = .commandStepwise w :: rest) :
    step s = .next (beginWord { s with inputs := rest } w) := by
  simp [step, activity, h.1, h.2, hi, State.takeInput]

/-- A host command in progress takes its next byte step unless a TICK arrives; a command word waits. -/
theorem step_of_host {s : State} (h : s.seq = .idle) (hr : s.hst ≠ .idle) (hn : s.inputs.head? ≠ some .tick) :
    step s = .next (hostStep s.takePass) := by
  cases hi : s.inputs with
  | nil => simp [step, activity, h, hi]
  | cons a rest => cases a <;> simp_all [step, activity, State.takePass]

theorem step_of_rest {s : State} (h : s.accepting) (hi : s.inputs = []) : step s = .next s := by
  simp [step, activity, h.1, hi, State.takePass, hostStep, h.2]

/-- The inversion of `step`: what a next state comes from. -/
theorem step_cases {s t : State} (h : step s = .next t) :
    (s.seq ≠ .idle ∧ s.inputs.head? ≠ some .tick ∧ t = seqStep s.takePass) ∨
    (s.seq = .idle ∧ ∃ rest, s.inputs = .tick :: rest ∧ t = ({ s with inputs := rest } : State).startRefresh) ∨
    (s.seq = .idle ∧ t = hostStep s.takePass) ∨
    (s.accepting ∧ ∃ w rest, s.inputs = .commandStepwise w :: rest ∧ t = beginWord { s with inputs := rest } w) ∨
    (s.accepting ∧ ∃ w rest i, s.inputs = .command w :: rest ∧ decode w = .ok i ∧
      t = outcomeOf i { s with inputs := rest }) ∨
    (s.accepting ∧ ∃ w rest e, s.inputs = .command w :: rest ∧ decode w = .error e ∧
      t = ({ s with inputs := rest } : State).raiseFault .illegalCommand) := by
  by_cases hs : s.seq = .idle
  · cases hi : s.inputs with
    | nil =>
      simp only [step, activity, hs, hi, Host.Outcome.next.injEq] at h
      exact .inr (.inr (.inl ⟨hs, h.symm⟩))
    | cons a rest =>
      cases a with
      | tick =>
        rw [step_of_tick hs hi, Host.Outcome.next.injEq] at h
        exact .inr (.inl ⟨hs, rest, rfl, h.symm⟩)
      | pass =>
        simp only [step, activity, hs, hi, Host.Outcome.next.injEq] at h
        exact .inr (.inr (.inl ⟨hs, h.symm⟩))
      | command w =>
        by_cases hh : s.hst = .idle
        · rw [step_of_command ⟨hs, hh⟩ hi] at h
          cases hd : decode w with
          | ok i =>
            rw [hd] at h
            exact .inr (.inr (.inr (.inr (.inl ⟨⟨hs, hh⟩, w, rest, i, rfl, hd, (exec_eq_next.1 h).2⟩))))
          | error e =>
            rw [hd, Host.Outcome.next.injEq] at h
            exact .inr (.inr (.inr (.inr (.inr ⟨⟨hs, hh⟩, w, rest, e, rfl, hd, h.symm⟩))))
        · rw [step_of_host hs hh (by simp [hi]), Host.Outcome.next.injEq] at h
          exact .inr (.inr (.inl ⟨hs, h.symm⟩))
      | commandStepwise w =>
        by_cases hh : s.hst = .idle
        · rw [step_of_stepwise ⟨hs, hh⟩ hi, Host.Outcome.next.injEq] at h
          exact .inr (.inr (.inr (.inl ⟨⟨hs, hh⟩, w, rest, rfl, h.symm⟩)))
        · rw [step_of_host hs hh (by simp [hi]), Host.Outcome.next.injEq] at h
          exact .inr (.inr (.inl ⟨hs, h.symm⟩))
  · by_cases hn : s.inputs.head? = some .tick
    · rw [step_of_overrun hs hn] at h; cases h
    · rw [step_of_busy hs hn, Host.Outcome.next.injEq] at h
      exact .inl ⟨hs, hn, h.symm⟩

/-! ## Using up a `pass` changes nothing but what is to arrive -/

/-- A leading `pass` is used up, and nothing else changes. -/
theorem takePass_eq (s : State) : s.takePass = { s with inputs := s.takePass.inputs } := by
  unfold State.takePass; split <;> rfl

@[simp] theorem takePass_ds (s : State) : s.takePass.ds = s.ds := by rw [takePass_eq]
@[simp] theorem takePass_sr (s : State) : s.takePass.sr = s.sr := by rw [takePass_eq]
@[simp] theorem takePass_seq (s : State) : s.takePass.seq = s.seq := by rw [takePass_eq]
@[simp] theorem takePass_hst (s : State) : s.takePass.hst = s.hst := by rw [takePass_eq]
@[simp] theorem takePass_data (s : State) : s.takePass.data = s.data := by rw [takePass_eq]
@[simp] theorem takePass_shclk (s : State) : s.takePass.shclk = s.shclk := by rw [takePass_eq]
@[simp] theorem takePass_latch (s : State) : s.takePass.latch = s.latch := by rw [takePass_eq]
@[simp] theorem takePass_trace (s : State) : s.takePass.trace = s.trace := by rw [takePass_eq]
@[simp] theorem takePass_cfg (s : State) : s.takePass.cfg = s.cfg := by rw [takePass_eq]
@[simp] theorem takePass_params (s : State) : s.takePass.params = s.params := by rw [takePass_eq]
@[simp] theorem takePass_results (s : State) : s.takePass.results = s.results := by rw [takePass_eq]

/-- With nothing, or a word, arriving, there is no `pass` to use up. -/
theorem takePass_of_wordsFirst {s : State} (h : wordsFirst s.inputs) : s.takePass = s := by
  unfold State.takePass; split
  · next h' => exact absurd (by simp [h']) h.2
  · rfl

end Sys2Proof.Machine
end

