-- ==== Sys2Proof/Laws/Commands.lean ====
section
/-! SUPPORT. The outcome of each command as one update of the state: what a proof about `exec` cites instead of
unfolding a meaning. -/

namespace Sys2Proof.Machine

variable (s : State)

/-- Where the block accepts command words, a meaning answers its outcome. -/
theorem exec_of_accepting {s : State} (i : Instr) (h : s.accepting) : exec i s = .next (outcomeOf i s) :=
  exec_eq_next.2 ⟨h, rfl⟩

theorem outcome_fault {i : Instr} {f : CommandFault} (h : checkOperands i = .error f) :
    outcomeOf i s = { s with results := s.results ++ [.raised f] } := by
  simp only [outcomeOf, h]; rfl

theorem outcome_writeNibble {val pos : BitVec 8} (hv : val.toNat < 10) (hp : pos.toNat < 4) :
    outcomeOf (.writeNibble val pos) s =
      { s with ds := s.ds.set ⟨pos.toNat, hp⟩ (enc ⟨val.toNat, hv⟩), results := s.results ++ [.ok] } := by
  simp only [outcomeOf, checkOperands, checkNibble, hv, hp, dite_true, Except.map]; rfl

theorem outcome_writeWord {n : BitVec 16} (hn : n.toNat < 10000) :
    outcomeOf (.writeWord n) s =
      { s with
        ds := ⟨enc (digitAt ⟨n.toNat, hn⟩ 0), enc (digitAt ⟨n.toNat, hn⟩ 1), enc (digitAt ⟨n.toNat, hn⟩ 2),
          enc (digitAt ⟨n.toNat, hn⟩ 3)⟩
        results := s.results ++ [.ok] } := by
  simp only [outcomeOf, checkOperands, checkWord, hn, dite_true, Except.map, State.writeAll, setAll_eq]; rfl

theorem outcome_clear :
    outcomeOf .clear s =
      { s with
        ds := ⟨Config.blank, Config.blank, Config.blank, Config.blank⟩, results := s.results ++ [.ok] } := by
  simp only [outcomeOf, checkOperands, State.writeAll, setAll_eq]; rfl

theorem outcome_showZerosLeft :
    outcomeOf .showZerosLeft s =
      { s with ds := s.ds.cascade Config.blank Config.zero, results := s.results ++ [.ok] } := rfl

theorem outcome_hideZerosLeft :
    outcomeOf .hideZerosLeft s =
      { s with ds := s.ds.cascade Config.zero Config.blank, results := s.results ++ [.ok] } := rfl

theorem outcome_update :
    outcomeOf .update s =
      { s with
        sr := .byte 0
        data := .low
        shclk := .high
        latch := .high
        trace := s.trace ++ cycleEvents s.ds
        results := s.results ++ [.ok] } := by
  simp only [outcomeOf, checkOperands, refreshCycle_eq]; rfl

end Sys2Proof.Machine
end

