-- ==== Sys2Proof/Laws/Decode.lean ====
section
/-! SUPPORT. The fields of a command word as numbers (spec/30_encoding.md R58, R60, R62). -/

namespace Sys2Proof

theorem opField_toNat (w : CommandWord) : (opField w).toNat = w.toNat / 65536 := by
  have := w.isLt
  simp only [opField, BitVec.extractLsb'_toNat, Nat.shiftRight_eq_div_pow]
  omega

theorem argField_toNat (w : CommandWord) : (argField w).toNat = w.toNat % 65536 := by
  simp only [argField, BitVec.extractLsb'_toNat, Nat.shiftRight_eq_div_pow]
  omega

theorem posField_toNat (w : CommandWord) : (posField w).toNat = w.toNat / 256 % 256 := by
  simp only [posField, BitVec.extractLsb'_toNat, Nat.shiftRight_eq_div_pow]

theorem valField_toNat (w : CommandWord) : (valField w).toNat = w.toNat % 256 := by
  simp only [valField, BitVec.extractLsb'_toNat, Nat.shiftRight_eq_div_pow]
  omega

/-- A field above another is its value times the other's modulus, plus the other (R10). -/
theorem append_toNat {m n : Nat} (a : BitVec m) (b : BitVec n) :
    (a ++ b).toNat = a.toNat * 2 ^ n + b.toNat := by
  rw [BitVec.toNat_append, ← Nat.shiftLeft_add_eq_or_of_lt b.isLt, Nat.shiftLeft_eq]

/-- The mask of the two commands with operands keeps `OP` alone. -/
theorem mask_opField (w : CommandWord) (k : Nat) (hk : k < 16) :
    w &&& 0xF0000#20 = BitVec.ofNat 20 (k * 65536) ↔ w.toNat / 65536 = k := by
  have hw := w.isLt
  have hm : w &&& 0xF0000#20 = (w >>> 16) <<< 16 := by
    refine BitVec.eq_of_getLsbD_eq fun i hi => ?_
    interval_cases i <;> simp
  have hn : (w &&& 0xF0000#20).toNat = w.toNat / 65536 * 65536 := by
    rw [hm]
    simp only [BitVec.toNat_shiftLeft, BitVec.toNat_ushiftRight, Nat.shiftLeft_eq, Nat.shiftRight_eq_div_pow]
    omega
  constructor
  · intro h
    rw [h, BitVec.toNat_ofNat] at hn
    omega
  · intro h
    refine BitVec.eq_of_toNat_eq ?_
    rw [hn, BitVec.toNat_ofNat]
    omega

end Sys2Proof
end

