-- ==== Sys2Proof/Laws/HostSteps.lean ====
section
/-! SUPPORT. What HOST's steps leave unchanged: a byte step, the arrival of a stepwise command word, and a whole command
other than UPDATE (spec/10_state.md R28; spec/60_exceptions.md R137). -/

namespace Sys2Proof.Machine

/-- `t` differs from `s` at most in the digit store, the host state, the result codes and what is to arrive: the
sequencer, the shift byte, the lines, the trace, the pin binding and the parameters are those of `s`. -/
structure OnlyHostMoved (s t : State) : Prop where
  sr : t.sr = s.sr
  seq : t.seq = s.seq
  data : t.data = s.data
  shclk : t.shclk = s.shclk
  latch : t.latch = s.latch
  trace : t.trace = s.trace
  cfg : t.cfg = s.cfg
  params : t.params = s.params

theorem OnlyHostMoved.level {s t : State} (h : OnlyHostMoved s t) (l : Line) : t.level l = s.level l := by
  cases l <;> simp [State.level, h.data, h.shclk, h.latch]

theorem finishCommand_moves (s : State) : OnlyHostMoved s s.finishCommand :=
  ⟨rfl, rfl, rfl, rfl, rfl, rfl, rfl, rfl⟩

theorem testAndReplace_moves (s : State) (c : Command) (i : Fin 4) (old new : Byte) :
    OnlyHostMoved s (s.testAndReplace c i old new) := by
  unfold State.testAndReplace
  split
  · dsimp only
    split <;> exact ⟨rfl, rfl, rfl, rfl, rfl, rfl, rfl, rfl⟩
  · exact finishCommand_moves s

theorem writeInOrder_moves (s : State) (c : Command) (i : Fin 4) (o : WriteOrder) (v : Pos → Byte) :
    OnlyHostMoved s (s.writeInOrder c i o v) := by
  unfold State.writeInOrder
  dsimp only
  split <;> exact ⟨rfl, rfl, rfl, rfl, rfl, rfl, rfl, rfl⟩

theorem byteStep_moves (s : State) (c : Command) (i : Fin 4) : OnlyHostMoved s (byteStep s c i) := by
  cases c with
  | writeNibble d p => exact ⟨rfl, rfl, rfl, rfl, rfl, rfl, rfl, rfl⟩
  | writeWord n => exact writeInOrder_moves s _ i s.params.wordOrder fun p => enc (digitAt n p)
  | clear => exact writeInOrder_moves s _ i s.params.clearOrder fun _ => Config.blank
  | showZerosLeft => exact testAndReplace_moves ..
  | hideZerosLeft => exact testAndReplace_moves ..
  | update => exact finishCommand_moves s

theorem hostStep_moves (s : State) : OnlyHostMoved s (hostStep s) := by
  unfold hostStep
  split
  · exact ⟨rfl, rfl, rfl, rfl, rfl, rfl, rfl, rfl⟩
  · exact byteStep_moves ..

/-- The operand check never turns another instruction into an UPDATE. -/
theorem checkOperands_ne_update {i : Instr} (h : i ≠ .update) : checkOperands i ≠ .ok .update := by
  cases i with
  | writeNibble val pos =>
    intro hc
    simp only [checkOperands] at hc
    cases hx : checkNibble val pos <;> simp [hx, Except.map] at hc
  | writeWord n =>
    intro hc
    simp only [checkOperands] at hc
    cases hx : checkWord n <;> simp [hx, Except.map] at hc
  | update => exact absurd rfl h
  | _ => simp [checkOperands]

/-- A whole command other than UPDATE moves neither the sequencer nor the lines, and leaves `HST`. -/
theorem outcomeOf_moves {i : Instr} (s : State) (h : i ≠ .update) :
    OnlyHostMoved s (outcomeOf i s) ∧ (outcomeOf i s).hst = s.hst := by
  have hu := checkOperands_ne_update h
  unfold outcomeOf
  split
  · exact ⟨⟨rfl, rfl, rfl, rfl, rfl, rfl, rfl, rfl⟩, rfl⟩
  · exact ⟨⟨rfl, rfl, rfl, rfl, rfl, rfl, rfl, rfl⟩, rfl⟩
  · exact ⟨⟨rfl, rfl, rfl, rfl, rfl, rfl, rfl, rfl⟩, rfl⟩
  · exact ⟨⟨rfl, rfl, rfl, rfl, rfl, rfl, rfl, rfl⟩, rfl⟩
  · exact ⟨⟨rfl, rfl, rfl, rfl, rfl, rfl, rfl, rfl⟩, rfl⟩
  · exact ⟨⟨rfl, rfl, rfl, rfl, rfl, rfl, rfl, rfl⟩, rfl⟩
  · next hc => exact absurd hc hu

/-- The arrival of a stepwise command word makes no pin event and writes no register of the digit store. -/
theorem beginWord_frame (s : State) (w : CommandWord) :
    (beginWord s w).ds = s.ds ∧ (beginWord s w).trace = s.trace ∧ (∀ l, (beginWord s w).level l = s.level l) ∧
      (beginWord s w).cfg = s.cfg ∧ (beginWord s w).params = s.params := by
  unfold beginWord
  split
  · unfold beginCommand
    split <;> exact ⟨rfl, rfl, fun l => by cases l <;> rfl, rfl, rfl⟩
  · exact ⟨rfl, rfl, fun l => by cases l <;> rfl, rfl, rfl⟩

/-- A byte step writes only legal patterns (R19). -/
theorem legal_byteStep {s : State} (h : s.ds.Legal) (c : Command) (i : Fin 4) : (byteStep s c i).ds.Legal := by
  cases c with
  | writeNibble d p => exact legal_set h p (legal_enc d)
  | writeWord n =>
    simp only [byteStep, State.writeInOrder]
    split <;> exact legal_set h _ (legal_enc _)
  | clear =>
    simp only [byteStep, State.writeInOrder]
    split <;> exact legal_set h _ legal_blank
  | showZerosLeft =>
    simp only [byteStep, State.testAndReplace]
    split
    · split <;> exact legal_set h _ legal_zero
    · exact h
  | hideZerosLeft =>
    simp only [byteStep, State.testAndReplace]
    split
    · split <;> exact legal_set h _ legal_blank
    · exact h
  | update => exact h

/-- A whole command leaves only legal patterns (R19). -/
theorem legal_outcomeOf {s : State} (h : s.ds.Legal) (i : Instr) : (outcomeOf i s).ds.Legal := by
  unfold outcomeOf
  split
  · exact h
  · exact legal_set h _ (legal_enc _)
  · exact legal_setAll _ _ fun _ => legal_enc _
  · exact legal_setAll _ _ fun _ => legal_blank
  · exact legal_cascade h _ legal_zero
  · exact legal_cascade h _ legal_blank
  · rw [refreshCycle_eq]; exact h

end Sys2Proof.Machine
end

