-- ==== Sys2Proof/Laws/Observers.lean ====
section
/-! SUPPORT. What the observers of the wire make of one transmitted byte and of one latch pulse, whatever came before:
edges, sampled bits, frame trace, receiver (spec/42_serial_transmitter.md R86; spec/43_multiplex_refresh.md R111,
R114, R115). -/

namespace Sys2Proof.Machine

/-! ## Lists of events in sequence -/

theorem risingEdges_append (l : Line) (w : Wires) (a b : List PinEvent) :
    risingEdges l w (a ++ b) = risingEdges l w a + risingEdges l (a.foldl Wires.after w) b := by
  induction a generalizing w with
  | nil => simp [risingEdges]
  | cons e es ih => simp [risingEdges, ih, Nat.add_assoc]

theorem sampledBits_append (w : Wires) (a b : List PinEvent) :
    sampledBits w (a ++ b) = sampledBits w a ++ sampledBits (a.foldl Wires.after w) b := by
  induction a generalizing w with
  | nil => simp [sampledBits]
  | cons e es ih => simp only [List.cons_append, sampledBits, List.foldl_cons, ih]; split <;> simp

theorem run_append (r : Receiver) (a b : List PinEvent) : r.run (a ++ b) = (r.run a).run b := by
  simp [Receiver.run]

/-! ## One transmitted byte -/

theorem wires_after_pattern (b : Byte) (w : Wires) :
    (patternEvents b).foldl Wires.after w = ⟨b.getLsbD 0, true, w.latch⟩ := by
  simp [patternEvents, bitEvents, Wires.after]

theorem risingEdges_pattern (b : Byte) (w : Wires) :
    risingEdges .shclk w (patternEvents b) = 8 ∧ risingEdges .latch w (patternEvents b) = 0 := by
  simp [patternEvents, bitEvents, risingEdges, Wires.rises, Wires.after, Wires.level]

theorem sampledBits_pattern (b : Byte) (w : Wires) :
    sampledBits w (patternEvents b) = ([7, 6, 5, 4, 3, 2, 1, 0] : List Nat).map b.getLsbD := by
  simp [patternEvents, bitEvents, sampledBits, Wires.rises, Wires.after, Wires.level]

theorem frameTraceFrom_pattern (b : Byte) (w : Wires) (rest : List PinEvent) :
    frameTraceFrom w 0 0 (patternEvents b ++ rest) =
      .byte b :: frameTraceFrom ((patternEvents b).foldl Wires.after w) 0 0 rest := by
  rw [wires_after_pattern]
  simp [patternEvents, bitEvents, frameTraceFrom, Wires.rises, Wires.after, Wires.level]
  revert b
  decide

/-- A bit of two bytes placed one above the other. -/
theorem append_getLsbD (a b : Byte) (i : Nat) :
    BitVec.getLsbD (w := 16) (a ++ b) i = if i < 8 then b.getLsbD i else a.getLsbD (i - 8) :=
  BitVec.getLsbD_append

/-- The eight clock pulses of a byte push it into the receiver's chain; the outputs stay. -/
theorem run_pattern (b : Byte) (r : Receiver) :
    r.run (patternEvents b) = ⟨⟨b.getLsbD 0, true, r.wires.latch⟩, r.q.setWidth 8 ++ b, r.out⟩ := by
  rcases r with ⟨w, q, out⟩
  simp [Receiver.run, patternEvents, bitEvents, Receiver.after, Wires.rises, Wires.after, Wires.level]
  refine BitVec.eq_of_getLsbD_eq fun i hi => ?_
  refine Eq.trans ?_ (append_getLsbD (q.setWidth 8) b i).symm
  simp only [BitVec.getLsbD_or, BitVec.getLsbD_shiftLeft, BitVec.getLsbD_setWidth, BitVec.getLsbD_ofBool]
  interval_cases i <;> simp

/-! ## One latch pulse -/

theorem wires_after_latch (w : Wires) : latchEvents.foldl Wires.after w = ⟨w.data, w.shclk, true⟩ := by
  simp [latchEvents, Wires.after]

theorem risingEdges_latch (w : Wires) :
    risingEdges .shclk w latchEvents = 0 ∧ risingEdges .latch w latchEvents = 1 := by
  simp [latchEvents, risingEdges, Wires.rises, Wires.after, Wires.level]

theorem sampledBits_latch (w : Wires) : sampledBits w latchEvents = [] := by
  simp [latchEvents, sampledBits, Wires.rises, Wires.after, Wires.level]

theorem frameTraceFrom_latch (w : Wires) (rest : List PinEvent) :
    frameTraceFrom w 0 0 (latchEvents ++ rest) =
      .lo :: .hi :: frameTraceFrom (latchEvents.foldl Wires.after w) 0 0 rest := by
  simp [latchEvents, frameTraceFrom, Wires.after]

theorem run_latch (r : Receiver) : r.run latchEvents = ⟨⟨r.wires.data, r.wires.shclk, true⟩, r.q, r.q⟩ := by
  simp [Receiver.run, latchEvents, Receiver.after, Wires.rises, Wires.after, Wires.level]

/-- The bits of a strobe byte (R95). -/
theorem onehot_getLsbD (p : Pos) (j : Nat) (h : j < 8) : (onehot p).getLsbD j = decide (j = p.val) := by
  fin_cases p <;> interval_cases j <;> rfl

end Sys2Proof.Machine
end

