-- ==== Sys2Proof/Laws/PerInstr.lean ====
section
/-! SUPPORT. The per-instruction family `OpcodeMap`: the word of a command is of that command's row of the opcode map, for
every value of its operands (spec/30_encoding.md R59). -/

namespace Sys2Proof.Laws.OpcodeMap

/-- The word of `i` is of the row of `i` (R59). -/
def Statement (i : Instr) : Prop := (opcodeRow i).accepts (encode i) = true

theorem writeNibble (val pos : BitVec 8) : Statement (.writeNibble val pos) := by
  refine decide_eq_true ((mask_opField _ 1 (by decide)).2 ?_)
  have := val.isLt
  have := pos.isLt
  simp only [encode, append_toNat, BitVec.toNat_ofNat]
  omega

theorem writeWord (n : BitVec 16) : Statement (.writeWord n) := by
  refine decide_eq_true ((mask_opField _ 2 (by decide)).2 ?_)
  have := n.isLt
  simp only [encode, append_toNat, BitVec.toNat_ofNat]
  omega

theorem clear : Statement .clear := by unfold Statement; decide

theorem showZerosLeft : Statement .showZerosLeft := by unfold Statement; decide

theorem hideZerosLeft : Statement .hideZerosLeft := by unfold Statement; decide

theorem update : Statement .update := by unfold Statement; decide

end Sys2Proof.Laws.OpcodeMap
end

