-- ==== Sys2Proof/Laws/Sequencer.lean ====
section
/-! SUPPORT. The sequencer's small steps: what one changes, that each makes one pin event and moves `SEQ` on by one,
and how steps chain into runs. -/

namespace Sys2Proof.Machine

/-- The return from a refresh cycle, by what it returns from. -/
theorem endRefresh_cases (s : State) :
    (s.endRefresh = { s with seq := .idle } ∧ ∀ i, s.hst ≠ .run .update i) ∨
    ((∃ i, s.hst = .run .update i) ∧
      s.endRefresh = { s with seq := .idle, hst := .idle, results := s.results ++ [.ok] }) := by
  unfold State.endRefresh
  split
  · next i h => exact .inr ⟨⟨i, h⟩, rfl⟩
  · next h => exact .inl ⟨rfl, h⟩

/-- What a sequencer step leaves: the digit store, the pin binding, the parameters and what is to arrive; and the host
command in progress, unless it is an UPDATE that ends. -/
theorem seqStep_frame (s : State) :
    (seqStep s).ds = s.ds ∧ (seqStep s).cfg = s.cfg ∧ (seqStep s).params = s.params ∧
    (seqStep s).inputs = s.inputs ∧
    ((seqStep s).hst = s.hst ∧ (seqStep s).results = s.results ∨
      (∃ i, s.hst = .run .update i) ∧ (seqStep s).seq = .idle ∧ (seqStep s).hst = .idle ∧
        (seqStep s).results = s.results ++ [.ok]) := by
  unfold seqStep
  split
  · simp
  · simp [State.driveTopBit]
  · simp
  · unfold State.afterBit
    split
    · simp
    · split <;> simp
  · simp
  · unfold State.afterFrame
    split
    · simp
    · rcases endRefresh_cases (s.drive .latch true) with ⟨h, _⟩ | ⟨⟨i, hi⟩, h⟩
      · simp [h]
      · rw [drive_hst] at hi
        simp [h, hi]

/-- Fewer than 200 events are made at every value of `SEQ` (R22). -/
theorem eventsMade_lt (q : SeqState) : q.eventsMade < 200 := by
  cases q with
  | idle => decide
  | shift p ph k sub => cases ph <;> cases sub <;> simp only [SeqState.eventsMade] <;> omega
  | latch p sub => cases sub <;> simp only [SeqState.eventsMade] <;> omega

theorem val_add_one {n : Nat} {a : Fin (n + 1)} (h : a.val < n) : (a + 1).val = a.val + 1 :=
  Fin.val_add_one_of_lt' (Nat.succ_lt_succ h)

/-- A step of a BUSY value makes one pin event, and moves `SEQ` on by one or ends the cycle (R105 to R109). -/
theorem seqStep_progress {s : State} (h : s.seq ≠ .idle) :
    (∃ e, (seqStep s).trace = s.trace ++ [e]) ∧
    ((seqStep s).seq ≠ .idle ∧ (seqStep s).seq.eventsMade = s.seq.eventsMade + 1 ∨
      (seqStep s).seq = .idle ∧ s.seq.eventsMade = 199) := by
  unfold seqStep
  split
  · contradiction
  · next p ph k hs => simp [State.driveTopBit, hs, SeqState.eventsMade]
  · next p ph k hs => simp [hs, SeqState.eventsMade]
  · next p ph k hs =>
    unfold State.afterBit
    split
    · next hk =>
      have hv : k.val < 7 := hk
      simp [hs, SeqState.eventsMade, val_add_one hv]
      omega
    · next hk =>
      have hv : k.val = 7 := by have := k.isLt; rw [Fin.lt_def] at hk; simp at hk; omega
      split <;> simp [hs, SeqState.eventsMade, hv]
  · next p hs => simp [hs, SeqState.eventsMade]
  · next p hs =>
    unfold State.afterFrame
    split
    · next hp =>
      have hv : p.val < 3 := hp
      simp [hs, SeqState.eventsMade, val_add_one hv]
      omega
    · next hp =>
      have hv : p.val = 3 := by have := p.isLt; rw [Fin.lt_def] at hp; simp at hp; omega
      rcases endRefresh_cases (s.drive .latch true) with ⟨e, _⟩ | ⟨_, e⟩ <;>
        simp [e, hs, SeqState.eventsMade, hv]

/-! ## Runs -/

theorem core_run_eq (n : Nat) (s : State) : Sys2Proof.core.run n s = runSteps n s := by
  induction n generalizing s with
  | zero => rfl
  | succ n ih =>
    cases h : step s with
    | next t =>
      have h' : Sys2Proof.core.step s = .next t := h
      simp only [Host.Core.run, runSteps, h, h']
      exact ih t
    | fault r =>
      have h' : Sys2Proof.core.step s = .fault r := h
      simp only [Host.Core.run, runSteps, h, h']
      rfl
    | refused r =>
      have h' : Sys2Proof.core.step s = .refused r := h
      simp only [Host.Core.run, runSteps, h, h']
      rfl

@[simp] theorem runSteps_zero (s : State) : runSteps 0 s = .next s := rfl

theorem runSteps_succ {s t : State} (n : Nat) (h : step s = .next t) : runSteps (n + 1) s = runSteps n t := by
  simp only [runSteps, h]

/-- Runs chain. -/
theorem runSteps_add {s t : State} (m n : Nat) (h : runSteps m s = .next t) :
    runSteps (m + n) s = runSteps n t := by
  induction m generalizing s with
  | zero =>
    cases h
    rw [Nat.zero_add]
  | succ m ih =>
    rw [Nat.add_right_comm]
    cases hs : step s with
    | next u =>
      rw [runSteps_succ m hs] at h
      rw [runSteps_succ (m + n) hs]
      exact ih h
    | fault r => simp [runSteps, hs] at h
    | refused r => simp [runSteps, hs] at h

/-- While `SEQ` is BUSY and no tick or `pass` leads what is to arrive, the sequencer steps. -/
theorem step_of_busy_words {s : State} (h : s.seq ≠ .idle) (hw : wordsFirst s.inputs) :
    step s = .next (seqStep s) := by
  rw [step_of_busy h hw.1, takePass_of_wordsFirst hw]

end Sys2Proof.Machine
end

