-- ==== Sys2Proof/Laws/Runs.lean ====
section
/-! SUPPORT. Runs of the sequencer: the three steps of a bit, the 24 of a byte and the two of a latch pulse, each as one
update of the state (spec/43_multiplex_refresh.md R105 to R109); and how what is to arrive passes by a run in which the
block is not IDLE (log 1). -/

namespace Sys2Proof.Machine

/-- The three steps of a bit are one turn of SEND_PATTERN's loop (R105 to R107). -/
theorem runSteps_bit {s : State} (hw : wordsFirst s.inputs) {p : Pos} {ph : BytePhase} {k : Fin 8}
    (hs : s.seq = .shift p ph k .d) :
    runSteps 3 s = .next (s.driveTopBit.clockPulse.shiftLeft.afterBit p ph k) := by
  rw [runSteps_succ 2 (step_of_busy_words (by simp [hs]) hw)]
  have e1 : seqStep s = { s.driveTopBit with seq := .shift p ph k .l } := by unfold seqStep; rw [hs]
  rw [e1, runSteps_succ 1 (step_of_busy_words (by simp) (by simpa [State.driveTopBit] using hw))]
  have e2 : seqStep { s.driveTopBit with seq := .shift p ph k .l } =
      { s.driveTopBit.drive .shclk false with seq := .shift p ph k .h } := rfl
  rw [e2, runSteps_succ 0 (step_of_busy_words (by simp) (by simpa [State.driveTopBit] using hw))]
  rfl

theorem sendBits_seq (n : Nat) (s : State) (q : SeqState) :
    State.sendBits n { s with seq := q } = { State.sendBits n s with seq := q } := by
  induction n generalizing s with
  | zero => rfl
  | succ n ih => exact ih s.driveTopBit.clockPulse.shiftLeft

/-- The steps of the last `j + 1` bits of a byte are as many turns of SEND_PATTERN's loop. -/
theorem runSteps_bits (j : Nat) {s : State} (hw : wordsFirst s.inputs) {p : Pos} {ph : BytePhase} {k : Fin 8}
    (hk : k.val + j = 7) (hs : s.seq = .shift p ph k .d) :
    runSteps (3 * (j + 1)) s = .next ((State.sendBits (j + 1) s).afterBit p ph 7) := by
  induction j generalizing s k with
  | zero =>
    obtain rfl : k = 7 := Fin.ext (by simpa using hk)
    exact runSteps_bit hw hs
  | succ j ih =>
    have hk7 : k.val < 7 := by omega
    rw [show 3 * (j + 1 + 1) = 3 + 3 * (j + 1) by omega, runSteps_add 3 _ (runSteps_bit hw hs)]
    have e : s.driveTopBit.clockPulse.shiftLeft.afterBit p ph k =
        { s.driveTopBit.clockPulse.shiftLeft with seq := .shift p ph (k + 1) .d } := if_pos hk7
    rw [e, ih (by simpa [State.driveTopBit, State.clockPulse] using hw) (by rw [val_add_one hk7]; omega) rfl,
      sendBits_seq]
    cases ph <;> rfl

/-- The 24 steps of a byte. -/
theorem runSteps_byte {s : State} {b : Byte} (hw : wordsFirst s.inputs) {p : Pos} {ph : BytePhase}
    (hs : s.seq = .shift p ph 0 .d) (hr : s.sr = .byte b) :
    runSteps 24 s = .next (State.afterBit
      { s with
        sr := .byte 0
        data := Level.of (b.getLsbD 0)
        shclk := .high
        trace := s.trace ++ patternEvents b } p ph 7) := by
  have hl : s.loadShift b = s := by cases s; simp_all [State.loadShift]
  have h := sendPattern_eq s b
  unfold State.sendPattern at h
  rw [hl] at h
  have := runSteps_bits 7 hw (k := 0) rfl hs
  rwa [h] at this

/-- The two steps of a latch pulse. -/
theorem runSteps_latch {s : State} (hw : wordsFirst s.inputs) {p : Pos} (hs : s.seq = .latch p .l) :
    runSteps 2 s = .next (State.afterFrame
      { s with latch := .high, trace := s.trace ++ latchEvents, seq := .latch p .h } p) := by
  rw [runSteps_succ 1 (step_of_busy_words (by simp [hs]) hw)]
  have e : seqStep s = { s with latch := .low, trace := s.trace ++ [⟨.latch, false⟩], seq := .latch p .h } := by
    unfold seqStep; rw [hs]; rfl
  rw [e]
  refine (runSteps_succ 0 (step_of_busy_words (by simp) (by exact hw))).trans ?_
  rw [runSteps_zero]
  simp [seqStep, State.drive, latchEvents, Level.of]

/-! ## What is to arrive, during a run in which the block is not IDLE -/

theorem takePass_inputs (s : State) : s.takePass.inputs = passesUsed 1 s.inputs := by
  unfold State.takePass
  split
  · next h => rw [h]; rfl
  · next h =>
    unfold passesUsed
    split
    · next h' => exact absurd h' (h _)
    · rfl

theorem passesUsed_succ (n : Nat) (l : List Input) : passesUsed (n + 1) l = passesUsed n (passesUsed 1 l) := by
  cases l with
  | nil => cases n <;> rfl
  | cons a rest => cases a <;> cases n <;> rfl

theorem noTickFor_succ {n : Nat} {l : List Input} (h : noTickFor (n + 1) l = true) :
    l.head? ≠ some .tick ∧ noTickFor n (passesUsed 1 l) = true := by
  cases l with
  | nil => cases n <;> simp [noTickFor, passesUsed]
  | cons a rest => cases a <;> cases n <;> simp_all [noTickFor, passesUsed]

theorem passesUsed_add (m n : Nat) (l : List Input) : passesUsed (m + n) l = passesUsed n (passesUsed m l) := by
  induction m generalizing l with
  | zero => rw [Nat.zero_add]; simp [passesUsed]
  | succ m ih => rw [Nat.add_right_comm, passesUsed_succ, ih, passesUsed_succ m l]

theorem noTickFor_add {m n : Nat} {l : List Input} (h : noTickFor (m + n) l = true) :
    noTickFor m l = true ∧ noTickFor n (passesUsed m l) = true := by
  induction m generalizing l with
  | zero => rw [Nat.zero_add] at h; exact ⟨by simp [noTickFor], by simpa [passesUsed] using h⟩
  | succ m ih =>
    rw [Nat.add_right_comm] at h
    cases l with
    | nil => exact ⟨rfl, by cases n <;> rfl⟩
    | cons a l => cases a <;> cases n <;> simp_all [noTickFor, passesUsed]

theorem noTickFor_mono {m n : Nat} {l : List Input} (hmn : m ≤ n) (h : noTickFor n l = true) :
    noTickFor m l = true := by
  obtain ⟨k, rfl⟩ := Nat.exists_eq_add_of_le hmn
  exact (noTickFor_add h).1

/-- Where words come first, no TICK arrives and no `pass` is used up. -/
theorem noTickFor_of_wordsFirst {l : List Input} (h : wordsFirst l) (n : Nat) :
    noTickFor n l = true ∧ passesUsed n l = l := by
  cases l with
  | nil => cases n <;> simp [noTickFor, passesUsed]
  | cons a rest => cases a <;> cases n <;> simp_all [noTickFor, passesUsed, wordsFirst]

/-- The sequencer does not look at what is to arrive. -/
theorem seqStep_inputs (s : State) (l : List Input) :
    seqStep { s with inputs := l } = { seqStep s with inputs := l } := by
  obtain ⟨ds, sr, seq, hst, data, shclk, latch, trace, cfg, params, results, inputs⟩ := s
  cases seq with
  | idle => rfl
  | shift p ph k sub =>
    cases sub with
    | d => rfl
    | l => rfl
    | h =>
      simp only [seqStep, State.afterBit]
      split
      · rfl
      · cases ph <;> rfl
  | latch p sub =>
    cases sub with
    | l => rfl
    | h =>
      simp only [seqStep, State.afterFrame]
      split
      · rfl
      · cases hst with
        | idle => rfl
        | run c i => cases c <;> rfl

/-- HOST's byte steps do not look at what is to arrive. -/
theorem hostStep_inputs (s : State) (l : List Input) :
    hostStep { s with inputs := l } = { hostStep s with inputs := l } := by
  obtain ⟨ds, sr, seq, hst, data, shclk, latch, trace, cfg, params, results, inputs⟩ := s
  cases hst with
  | idle => rfl
  | run c i =>
    cases c <;> simp only [hostStep, byteStep, State.writeInOrder, State.testAndReplace]
    case writeNibble => rfl
    case update => rfl
    case writeWord => split <;> rfl
    case clear => split <;> rfl
    all_goals
      split
      · split <;> rfl
      · rfl

/-- A sequencer step, with what is then still to arrive. -/
theorem step_of_busy_inputs {s : State} (h : s.seq ≠ .idle) (hn : s.inputs.head? ≠ some .tick) :
    step s = .next { seqStep s with inputs := passesUsed 1 s.inputs } := by
  rw [step_of_busy h hn, ← takePass_inputs, ← seqStep_inputs, ← takePass_eq]

/-- A byte step of HOST, with what is then still to arrive. -/
theorem step_of_host_inputs {s : State} (h : s.seq = .idle) (hr : s.hst ≠ .idle)
    (hn : s.inputs.head? ≠ some .tick) :
    step s = .next { hostStep s with inputs := passesUsed 1 s.inputs } := by
  rw [step_of_host h hr hn, ← takePass_inputs, ← hostStep_inputs, ← takePass_eq]

/-- While the block is not IDLE, a step does what it would do with nothing arriving: a `pass` is used up, and a command
word waits. -/
theorem step_past_inputs {s t : State} (ha : ¬ s.accepting) (hn : s.inputs.head? ≠ some .tick)
    (h : step { s with inputs := [] } = .next t) :
    step s = .next { t with inputs := passesUsed 1 s.inputs } ∧ t.inputs = [] := by
  by_cases hq : s.seq = .idle
  · have hh : s.hst ≠ .idle := fun hh => ha ⟨hq, hh⟩
    rw [step_of_host_inputs (by exact hq) (by exact hh) (by simp), hostStep_inputs, Host.Outcome.next.injEq] at h
    subst h
    exact ⟨step_of_host_inputs hq hh hn, rfl⟩
  · rw [step_of_busy_inputs (by exact hq) (by simp), seqStep_inputs, Host.Outcome.next.injEq] at h
    subst h
    exact ⟨step_of_busy_inputs hq hn, rfl⟩

/-- An IDLE block with nothing arriving stays, however many steps it takes. -/
theorem runSteps_of_rest {s : State} (h : s.accepting) (hi : s.inputs = []) (n : Nat) : runSteps n s = .next s := by
  induction n with
  | zero => rfl
  | succ n ih => rw [runSteps_succ n (step_of_rest h hi), ih]

/-- A run with nothing arriving is also a run of at most as many steps past what does arrive, up to where the block is
IDLE again, if no TICK is among it. -/
theorem runSteps_past_inputs {n : Nat} {s t : State} (h : runSteps n { s with inputs := [] } = .next t)
    (hn : noTickFor n s.inputs = true) :
    ∃ m, m ≤ n ∧ runSteps m s = .next { t with inputs := passesUsed m s.inputs } := by
  induction n generalizing s with
  | zero =>
    rw [runSteps_zero, Host.Outcome.next.injEq] at h
    exact ⟨0, Nat.le_refl 0, by rw [← h]; rfl⟩
  | succ n ih =>
    by_cases ha : s.accepting
    · rw [runSteps_of_rest (by exact ha) rfl, Host.Outcome.next.injEq] at h
      exact ⟨0, Nat.zero_le _, by rw [← h]; rfl⟩
    · obtain ⟨hh, hn'⟩ := noTickFor_succ hn
      cases hs : step { s with inputs := [] } with
      | next u =>
        rw [runSteps_succ n hs] at h
        obtain ⟨hs', hu⟩ := step_past_inputs ha hh hs
        have hu' : ({ u with inputs := [] } : State) = u := by rw [← hu]
        obtain ⟨m, hm, hr⟩ := ih (s := { u with inputs := passesUsed 1 s.inputs }) (hu' ▸ h) hn'
        exact ⟨m + 1, Nat.succ_le_succ hm, by rw [runSteps_succ m hs', hr, passesUsed_succ m s.inputs]⟩
      | fault r => simp [runSteps, hs] at h
      | refused r => simp [runSteps, hs] at h

end Sys2Proof.Machine
end

