-- ==== Sys2Proof/Tests/Slice0.lean ====
section
/-! SUPPORT. The writer's own tests: words written out from the encoding, single steps against the vectors of
spec/95_test_vectors.md, and for every statement with hypotheses a concrete state and operands that meet them. -/

namespace Sys2Proof.Tests

open Sys2Proof Sys2Proof.Machine

/-! ## Helpers -/

/-- The state after a construction with the identifiers 0, 1, 2. -/
def fresh : State := State.construct 0 1 2

/-- `fresh` with a digit store, the units first. -/
def holding (d0 d1 d2 d3 : Byte) : State := { fresh with ds := ⟨d0, d1, d2, d3⟩ }

/-- A state in a refresh cycle, over the store of 1234. -/
def busy (q : SeqState) (h : HostState) (sr : Byte) : State :=
  { holding 0x99 0xB0 0xA4 0xF9 with seq := q, hst := h, sr := .byte sr }

/-- What may be still to arrive while HOST takes a byte step: nothing, a `pass`, or a command word sent either way. -/
def arriving : List (List Input) :=
  [[], [.pass, .tick], [.command 0x30000#20, .tick], [.commandStepwise 0x60000#20, .command 0x30000#20]]

/-- The digit store a meaning leaves, and the last result code. -/
def leaves (o : Host.Outcome State Fault Refusal) : Option (DigitStore × Option ResultCode) :=
  match o with
  | .next t => some (t.ds, t.results.getLast?)
  | _ => none

/-! ## WellFormed: an ill-formed term for each check (R60, R61) -/

theorem test_digit_10_not_faultFree : (Instr.writeNibble 10#8 0#8).faultFree = false := by decide
theorem test_position_4_not_faultFree : (Instr.writeNibble 3#8 4#8).faultFree = false := by decide
theorem test_word_10000_not_faultFree : (Instr.writeWord 10000#16).faultFree = false := by decide
theorem test_digit_9_position_3_faultFree : (Instr.writeNibble 9#8 3#8).faultFree = true := by decide
theorem test_word_9999_faultFree : (Instr.writeWord 9999#16).faultFree = true := by decide

/-! ## Decoding: words of V2 to V6, and R59 -/

theorem test_decode_writeNibble : decode 0b00010000001100001001#20 = .ok (.writeNibble 9#8 3#8) := by decide
theorem test_decode_writeWord : decode 0b00100000010011010010#20 = .ok (.writeWord 1234#16) := by decide
theorem test_decode_clear : decode 0b00110000000000000000#20 = .ok .clear := by decide
theorem test_decode_showZerosLeft : decode 0b01000000000000000000#20 = .ok .showZerosLeft := by decide
theorem test_decode_hideZerosLeft : decode 0b01010000000000000000#20 = .ok .hideZerosLeft := by decide
theorem test_decode_update : decode 0b01100000000000000000#20 = .ok .update := by decide
theorem test_decode_reserved_15 : decode 0xF1234#20 = .error (.reservedOpcode 15#4) := by decide
theorem test_decode_reserved_7 : decode 0x70000#20 = .error (.reservedOpcode 7#4) := by decide
theorem test_decode_update_with_argument : decode 0x60001#20 = .error (.nonzeroArgument 6#4 1#16) := by decide
theorem test_encode_writeNibble : encode (.writeNibble 5#8 0#8) = 0x10005#20 := by decide
theorem test_encode_writeWord : encode (.writeWord 9999#16) = 0x2270F#20 := by decide
theorem test_tableWord : decodeTableWord 24 0x040000 = some .showZerosLeft := by decide
theorem test_tableWord_over_20_bits : decodeTableWord 24 0x130000 = none := by decide

/-! ## The commands: V2 to V6 -/

theorem test_writeNibble_9_3 : leaves (exec (.writeNibble 9#8 3#8) fresh) =
    some (⟨0xFF#8, 0xFF#8, 0xFF#8, 0x90#8⟩, some .ok) := by decide
theorem test_writeNibble_12_7 : leaves (exec (.writeNibble 12#8 7#8) fresh) =
    some (⟨0xFF#8, 0xFF#8, 0xFF#8, 0xFF#8⟩, some (.raised .invalidDigit)) := by decide
theorem test_writeWord_907 : leaves (exec (.writeWord 907#16) fresh) =
    some (⟨0xF8#8, 0xC0#8, 0x90#8, 0xC0#8⟩, some .ok) := by decide
theorem test_writeWord_10000 : leaves (exec (.writeWord 10000#16) (holding 0x99 0xB0 0xA4 0xF9)) =
    some (⟨0x99#8, 0xB0#8, 0xA4#8, 0xF9#8⟩, some (.raised .valueOutOfRange)) := by decide
theorem test_clear : leaves (exec .clear (holding 0x99 0xB0 0xA4 0xF9)) =
    some (⟨0xFF#8, 0xFF#8, 0xFF#8, 0xFF#8⟩, some .ok) := by decide
theorem test_show_gap : leaves (exec .showZerosLeft (holding 0xF8 0xFF 0xC0 0xFF)) =
    some (⟨0xF8#8, 0xFF#8, 0xC0#8, 0xC0#8⟩, some .ok) := by decide
theorem test_show_stops_at_once : leaves (exec .showZerosLeft (holding 0x92 0xFF 0xFF 0xF9)) =
    some (⟨0x92#8, 0xFF#8, 0xFF#8, 0xF9#8⟩, some .ok) := by decide
theorem test_hide_all_zeros : leaves (exec .hideZerosLeft (holding 0xC0 0xC0 0xC0 0xC0)) =
    some (⟨0xC0#8, 0xFF#8, 0xFF#8, 0xFF#8⟩, some .ok) := by decide
theorem test_hide_inner_zero : leaves (exec .hideZerosLeft (holding 0x92 0xC0 0xF9 0xC0)) =
    some (⟨0x92#8, 0xC0#8, 0xF9#8, 0xFF#8⟩, some .ok) := by decide

/-! ## The transmitter and the display: S7, V7, V8, V9 -/

/-- V8: the 50 pin events of frame 0 over 0xA4. -/
theorem test_frame_events : (fresh.sendPattern 0xA4#8 |>.sendPattern 0x01#8 |>.latchPulse).trace =
    bitEvents true ++ bitEvents false ++ bitEvents true ++ bitEvents false ++
    bitEvents false ++ bitEvents true ++ bitEvents false ++ bitEvents false ++
    bitEvents false ++ bitEvents false ++ bitEvents false ++ bitEvents false ++
    bitEvents false ++ bitEvents false ++ bitEvents false ++ bitEvents true ++
    [⟨.latch, false⟩, ⟨.latch, true⟩] := by decide

/-- S7: the bits sampled from 0xB4, with SHCLK high before. -/
theorem test_sampled_bits : sampledBits ⟨false, true, false⟩ (fresh.sendPattern 0xB4#8).trace =
    [true, false, true, true, false, true, false, false] := by decide

set_option maxRecDepth 8000 in
/-- V9: the frame trace of UPDATE over 1234. -/
theorem test_update_frame_trace :
    (match exec .update (holding 0x99 0xB0 0xA4 0xF9) with
      | .next t => frameTrace ⟨true, true, true⟩ t.trace
      | _ => []) =
    [.byte 0x99#8, .byte 0x01#8, .lo, .hi, .byte 0xB0#8, .byte 0x02#8, .lo, .hi,
      .byte 0xA4#8, .byte 0x04#8, .lo, .hi, .byte 0xF9#8, .byte 0x08#8, .lo, .hi] := by decide

set_option maxRecDepth 8000 in
/-- V9: the lines and `SR` after UPDATE. -/
theorem test_update_lines :
    (match exec .update fresh with
      | .next t => some (t.data, t.shclk, t.latch, t.sr, t.trace.length)
      | _ => none) = some (.low, .high, .high, .byte 0x00#8, 200) := by decide

/-- V8: the reference receiver after the latch edge of frame 0. -/
theorem test_receiver_out :
    ((⟨⟨true, false, true⟩, 0x5A5A#16, 0xFFFF#16⟩ : Receiver).run (frameEvents 0xA4#8 0)).out = 0xA401#16 := by
  decide

/-- R72 (e): the shapes of 2 and of 9. -/
theorem test_lit_segments :
    litSegments 0xA4#8 = [.a, .b, .d, .e, .g] ∧ litSegments 0x90#8 = [.a, .b, .c, .d, .f, .g] := by decide

/-- R72 (a), (b): the inverse of the table. -/
theorem test_inverse_table : encInverse 0x82#8 = some 6 ∧ encInverse 0xFF#8 = none := by decide

/-! ## The step -/

/-- P4: byte step 2 of WRITE_WORD 5678, and the tick after it. -/
theorem test_step_torn_word :
    (match step { holding 0x99 0xB0 0xA4 0x92 with hst := .run (.writeWord 5678) 1, inputs := [.pass, .tick] } with
      | .next t => some (t.ds, t.hst, match step t with | .next u => some (u.sr, u.seq, u.hst) | _ => none)
      | _ => none) =
    some (⟨0x99#8, 0xB0#8, 0x82#8, 0x92#8⟩, .run (.writeWord 5678) 2,
      some (.byte 0x99#8, .shift 0 .seg 0 .d, .run (.writeWord 5678) 2)) := by decide

/-- The word of the table, arriving at reset, runs as the first instruction. -/
theorem test_fetch_word : leaves (step (fresh.withFetchWord 24 0x010208)) =
    some (⟨0xFF#8, 0xFF#8, 0x80#8, 0xFF#8⟩, some .ok) := by decide

/-- The same from the reset state itself. -/
theorem test_fetch_word_at_reset : leaves (step (State.reset.withFetchWord 24 0x020007)) =
    some (⟨0xF8#8, 0xC0#8, 0xC0#8, 0xC0#8⟩, some .ok) := by decide

/-- R46: a cascade's command that stops at its first test ends with that byte step. -/
theorem test_step_cascade_stops :
    (match step { holding 0xF8 0xFF 0xC0 0xFF with hst := .run .showZerosLeft 1 } with
      | .next t => some (t.ds, t.hst, t.results)
      | _ => none) = some (⟨0xF8#8, 0xFF#8, 0xC0#8, 0xFF#8⟩, .idle, [.ok]) := by decide

/-! ## Witnesses: states and operands that meet the hypotheses of the statements, clause by clause -/

theorem witness_DecodeAndEncodeAreInverse : decode 0x1FFFF#20 = .ok (.writeNibble 0xFF#8 0xFF#8) := by decide

theorem witness_OpcodeMapDecidesTheCommand :
    (0x2270F#20 &&& 0xF0000#20 = 0x20000#20) ∧ (0x60000#20 &&& 0xFFFFF#20 = 0x60000#20) := by decide

theorem witness_IllegalWordsRaiseIllegalCommand :
    let s : State := { fresh with inputs := [.command 0x70000#20] }
    let t : State := { fresh with inputs := [.commandStepwise 0x60001#20, .tick] }
    (s.accepting ∧ (∃ e, decode 0x70000#20 = .error e) ∧ s.inputs = .command 0x70000#20 :: []) ∧
      (t.accepting ∧ (∃ e, decode 0x60001#20 = .error e) ∧ t.inputs = .commandStepwise 0x60001#20 :: [.tick]) :=
  ⟨⟨by decide, ⟨_, rfl⟩, rfl⟩, ⟨by decide, ⟨_, rfl⟩, rfl⟩⟩

theorem witness_StepRunsTheDecodedCommand :
    let s : State := { fresh with inputs := [.command 0x50000#20, .pass] }
    s.accepting ∧ s.inputs = .command 0x50000#20 :: [.pass] ∧ decode 0x50000#20 = .ok .hideZerosLeft := by decide

theorem witness_StepBeginsAStepwiseCommand :
    let s (w : CommandWord) : State := { fresh with inputs := [.commandStepwise w] }
    (∀ w, (s w).accepting ∧ (s w).inputs = .commandStepwise w :: []) ∧
      (decode 0x10409#20 = .ok (.writeNibble 9#8 4#8) ∧ ∃ f, checkOperands (.writeNibble 9#8 4#8) = .error f) ∧
      (decode 0x10309#20 = .ok (.writeNibble 9#8 3#8) ∧
        ∃ c, checkOperands (.writeNibble 9#8 3#8) = .ok c ∧ c ≠ .update) ∧
      decode 0x60000#20 = .ok .update :=
  ⟨fun _ => ⟨⟨rfl, rfl⟩, rfl⟩, ⟨by decide, ⟨_, rfl⟩⟩, ⟨by decide, ⟨_, rfl, by decide⟩⟩, by decide⟩

theorem witness_NoCommandRunsUnlessBothAgentsAreIdle :
    ¬ (busy (.latch 3 .h) .idle 0).accepting ∧ ¬ ({ fresh with hst := .run .clear 3 } : State).accepting := by decide

theorem witness_OnlyAnOverrunStopsTheMachine :
    (busy (.shift 3 .stb 7 .h) .idle 0x80).NoOverrun ∧
      ({ busy (.latch 0 .l) .idle 0 with inputs := [.tick] } : State).seq ≠ .idle ∧
      ({ busy (.latch 0 .l) .idle 0 with inputs := [.tick] } : State).inputs.head? = some .tick := by decide

theorem witness_AnIdleBlockStays : fresh.accepting ∧ fresh.inputs = [] := by decide

theorem witness_WriteNibbleStoresTheDigitsPattern :
    fresh.accepting ∧
      [0xC0#8, 0xF9#8, 0xA4#8, 0xB0#8, 0x99#8, 0x92#8, 0x82#8, 0xF8#8, 0x80#8, 0x90#8][(9#8).toNat]? = some 0x90#8 ∧
      (3#8).toNat ≤ 3 ∧ 9 < (10#8).toNat ∧ (9#8).toNat ≤ 9 ∧ 3 < (4#8).toNat := by decide

theorem witness_WriteWordStoresTheFourDigits :
    fresh.accepting ∧ (9999#16).toNat ≤ 9999 ∧ (9 : Digit).val = (9999#16).toNat / 1000 ∧
      (9 : Digit).val = (9999#16).toNat % 1000 / 100 ∧ (9 : Digit).val = (9999#16).toNat % 100 / 10 ∧
      (9 : Digit).val = (9999#16).toNat % 10 ∧ 9999 < (10000#16).toNat ∧
      ∀ i ∈ ([0, 3] : List (Fin 4)), ∀ rest ∈ arriving,
        let s : State := { fresh with hst := .run (.writeWord 9999) i, inputs := rest }
        s.seq = .idle ∧ s.inputs.head? ≠ some .tick ∧ s.hst = .run (.writeWord 9999) i ∧
          s.params.wordOrder = .descending := by
  decide

theorem witness_ClearBlanksAllPositions :
    fresh.accepting ∧
      ∀ i ∈ ([0, 3] : List (Fin 4)), ∀ rest ∈ arriving,
        let s : State := { fresh with hst := .run .clear i, inputs := rest }
        s.seq = .idle ∧ s.inputs.head? ≠ some .tick ∧ s.hst = .run .clear i ∧
          s.params.clearOrder = .ascending := by decide

theorem witness_ShowZerosReplacesTheLeadingBlanks :
    (holding 0xF8 0xFF 0xC0 0xFF).accepting ∧
      (∀ p : Pos, 3 ≤ p → (holding 0xF8 0xFF 0xC0 0xFF).ds.get p = 0xFF#8) ∧
      (∃ p : Pos, 1 ≤ p ∧ (holding 0xF8 0xFF 0xC0 0xFF).ds.get p ≠ 0xFF#8) := by decide

theorem witness_HideZerosBlanksTheLeadingZeros :
    (holding 0x92 0xC0 0xF9 0xC0).accepting ∧
      (∀ p : Pos, 3 ≤ p → (holding 0x92 0xC0 0xF9 0xC0).ds.get p = 0xC0#8) ∧
      (∃ p : Pos, 1 ≤ p ∧ (holding 0x92 0xC0 0xF9 0xC0).ds.get p ≠ 0xC0#8) := by decide

/-- For every statement about an UPDATE that answers a next state: it does, here. -/
theorem witness_UpdateAnswers : fresh.accepting ∧ ∃ t, exec .update fresh = .next t := ⟨by decide, ⟨_, rfl⟩⟩

theorem witness_StoreCommandsTouchOnlyTheStore :
    (∃ t, exec (.writeNibble 9#8 3#8) fresh = .next t) ∧ (Instr.writeNibble 9#8 3#8 ≠ .update) ∧
      (2 : Pos).val ≠ (3#8).toNat ∧ (∃ t, exec .hideZerosLeft fresh = .next t) ∧
      (∃ t, exec (.writeWord 10000#16) fresh = .next t) ∧ (Instr.writeWord 10000#16).faultFree = false :=
  ⟨⟨_, rfl⟩, by decide, by decide, ⟨_, rfl⟩, ⟨_, rfl⟩, by decide⟩

theorem witness_EveryCommandReturnsOneResultCode :
    (∃ t, exec .clear fresh = .next t) ∧ ∃ t, exec (.writeNibble 9#8 4#8) fresh = .next t := ⟨⟨_, rfl⟩, ⟨_, rfl⟩⟩

/-- A faulting operand. -/
theorem witness_FaultIsNotSticky :
    (Instr.writeNibble 10#8 0#8).faultFree = false ∧ (∃ t, exec (.writeNibble 10#8 0#8) fresh = .next t) ∧
      ∃ u, exec .update fresh = .next u := ⟨by decide, ⟨_, rfl⟩, ⟨_, rfl⟩⟩

/-- An illegal word, and a word with a faulting operand. -/
theorem faulting_words : FaultingWord 0x70000#20 ∧ FaultingWord 0x22710#20 :=
  ⟨.inl ⟨.reservedOpcode 7#4, by decide⟩, .inr ⟨.writeWord 10000#16, by decide, by decide⟩⟩

/-- The two words, each sent either way. -/
theorem witness_FaultIsNotSticky_words :
    (FaultingWord 0x70000#20 ∧ FaultingWord 0x22710#20) ∧
    ∀ w ∈ ([0x70000#20, 0x22710#20] : List CommandWord),
      let s : State := { fresh with inputs := [.command w, .tick] }
      let t : State := { fresh with inputs := [.commandStepwise w, .command 0x60000#20] }
      (s.accepting ∧ s.inputs = .command w :: [.tick]) ∧
        (t.accepting ∧ t.inputs = .commandStepwise w :: [.command 0x60000#20]) :=
  ⟨faulting_words, fun _ _ => ⟨⟨⟨rfl, rfl⟩, rfl⟩, ⟨rfl, rfl⟩, rfl⟩⟩

/-- The last bit read, and the shift that leaves 0x00. -/
theorem witness_ShiftByteAfterEachShift : (7 < 8) ∧ (0x90#8).toNat * 2 ^ 8 % 256 = 0 := by decide

theorem witness_StartStepLoadsTheFirstPattern :
    let s : State := { fresh with hst := .run (.writeWord 5678) 2, inputs := [.tick] }
    let t : State := { fresh with inputs := [.commandStepwise 0x60000#20] }
    (s.seq = .idle ∧ s.inputs = .tick :: []) ∧
      (t.seq = .idle ∧ t.hst = .idle ∧ t.inputs = .commandStepwise 0x60000#20 :: [] ∧
        decode 0x60000#20 = .ok .update) := by decide

theorem witness_DataAndLowSteps :
    (busy (.shift 0 .seg 0 .d) .idle 0x99).NoOverrun ∧ (busy (.shift 0 .seg 0 .d) .idle 0x99).sr = .byte 0x99#8 ∧
      (busy (.shift 3 .stb 7 .l) .idle 0).NoOverrun ∧ (busy (.latch 3 .l) .idle 0).NoOverrun := by decide

theorem witness_ClockHighStep :
    (busy (.shift 0 .seg 6 .h) .idle 0x40).NoOverrun ∧ (6 : Fin 8).val < 7 ∧
      (busy (.shift 0 .seg 7 .h) .idle 0x80).NoOverrun ∧ (7 : Fin 8).val = 7 ∧
      (busy (.shift 3 .stb 7 .h) .idle 0).NoOverrun := by decide

theorem witness_LatchHighStep :
    (busy (.latch 2 .h) .idle 0).NoOverrun ∧ (2 : Pos).val < 3 ∧
      (busy (.latch 3 .h) (.run .update 0) 0).NoOverrun ∧ (3 : Pos).val = 3 ∧
      (busy (.latch 3 .h) (.run .update 0) 0).hst = .run .update 0 ∧
      (∀ i, (busy (.latch 3 .h) (.run .clear 2) 0).hst ≠ .run .update i) := by decide

theorem witness_HostHasNoStepWhileBusy :
    (busy (.latch 3 .h) (.run .update 0) 0).seq ≠ .idle ∧
      ∃ t, step (busy (.latch 3 .h) (.run .update 0) 0) = .next t := ⟨by decide, ⟨_, rfl⟩⟩

/-- No TICK arrives while at least `n` passes lead. -/
theorem noTickFor_of_passes (n k : Nat) (rest : List Input) :
    noTickFor n (List.replicate (n + k) .pass ++ rest) = true := by
  induction n with
  | zero => simp [noTickFor]
  | succ n ih => rw [Nat.add_right_comm]; exact ih

/-- What may follow while no TICK arrives for `n` steps: nothing, a word with a TICK behind it, or passes and a TICK. -/
def following (n : Nat) (rest : List Input) : Prop :=
  rest = [] ∨ rest = [.commandStepwise 0x22710#20, .tick] ∨ rest = List.replicate n .pass ++ [.tick]

theorem noTickFor_following {m n : Nat} {rest : List Input} (hmn : m ≤ n) (h : following n rest) :
    noTickFor m rest = true := by
  rcases h with rfl | rfl | rfl
  · cases m <;> rfl
  · cases m <;> rfl
  · obtain ⟨k, rfl⟩ := Nat.exists_eq_add_of_le hmn
    exact noTickFor_of_passes m k _

/-- A cycle from its first event, in the schedule TICK, 200 passes, TICK among others. -/
theorem witness_RefreshFinishesInItsTwoHundredSteps (rest : List Input) (h : following 200 rest) :
    let s : State := { busy (.shift 0 .seg 0 .d) .idle 0x99 with inputs := rest }
    s.seq ≠ .idle ∧ noTickFor 200 s.inputs = true ∧ 200 ≤ 200 - s.seq.eventsMade :=
  ⟨by simp [busy], noTickFor_following (Nat.le_refl _) h,
    (by decide : 200 ≤ 200 - (SeqState.shift 0 .seg 0 .d).eventsMade)⟩

/-- A cycle at its last event. -/
theorem witness_RefreshFinishes_last :
    let s : State := { busy (.latch 3 .h) .idle 0 with inputs := [.pass, .tick] }
    s.seq ≠ .idle ∧ noTickFor 1 s.inputs = true ∧ 1 ≤ 200 - s.seq.eventsMade := by decide

theorem witness_SmallStepsAgreeWithOneStepUpdate (rest : List Input) (h : following 200 rest) :
    let s : State := { fresh with hst := .run (.writeWord 5678) 2, inputs := .tick :: rest }
    s.seq = .idle ∧ s.HostAgrees ∧ s.inputs = .tick :: rest ∧ noTickFor 200 rest = true :=
  ⟨rfl, (by decide : (2 : Fin 4).val < 4), rfl, noTickFor_following (Nat.le_refl _) h⟩

/-- UPDATE, WRITE_WORD, a faulting WRITE_NIBBLE, any other; a second stepwise word after it, among others. -/
theorem witness_StepwiseCommandsAgreeWithWholeOnes (i : Instr) (rest : List Input) (h : following 200 rest) :
    let s : State := { fresh with inputs := .commandStepwise (encode i) :: rest }
    s.accepting ∧ s.inputs = .commandStepwise (encode i) :: rest ∧ noTickFor 200 rest = true :=
  ⟨⟨rfl, rfl⟩, rfl, noTickFor_following (Nat.le_refl _) h⟩

/-- A word waiting whole and stepwise, a `pass`, and nothing; and the byte step of WRITE_NIBBLE. -/
theorem witness_HostStepLeavesAWaitingWord :
    (∀ c ∈ ([.writeNibble 9 3, .writeWord 5678, .hideZerosLeft] : List Command), ∀ rest ∈ arriving,
      let s : State := { fresh with hst := .run c 0, inputs := rest }
      s.seq = .idle ∧ s.hst = .run c 0 ∧ s.inputs.head? ≠ some .tick) ∧
    .pass :: [.tick] ∈ arriving ∧ .command 0x30000#20 :: [.tick] ∈ arriving ∧
      .commandStepwise 0x60000#20 :: [.command 0x30000#20] ∈ arriving := by decide

/-- The running command goes on and the waiting stepwise word waits: byte step 2 of WRITE_WORD 5678. -/
theorem test_step_leaves_a_waiting_word :
    let s := holding 0x99 0xB0 0xA4 0x92
    (match step { s with hst := .run (.writeWord 5678) 1, inputs := [.commandStepwise 0x60000#20] } with
      | .next t => some (t.ds, t.hst, t.inputs)
      | _ => none) =
    some (⟨0x99#8, 0xB0#8, 0x82#8, 0x92#8⟩, .run (.writeWord 5678) 2, [.commandStepwise 0x60000#20]) := by decide

theorem witness_CascadeByteSteps :
    let s : State := { holding 0xF8 0xFF 0xC0 0xFF with hst := .run .showZerosLeft 0 }
    (∀ rest ∈ arriving, ({ s with inputs := rest } : State).inputs.head? ≠ some .tick) ∧
      s.seq = .idle ∧ (2 : Fin 4).val < 3 ∧ s.ds.get (3 - 0) = 0xFF#8 ∧
      s.ds.get (3 - 1) ≠ 0xFF#8 ∧ (1 : Fin 4).val < 2 ∧ (2 : Fin 4).val = 2 ∧
      ({ s with hst := .run .hideZerosLeft 2 } : State).hst = .run .hideZerosLeft 2 := by decide

/-- A TICK before the first byte step (`k` = 0), between two of them, or after the last (`k` = 4). -/
theorem witness_TornWordIsTransmittedAndThenCompleted (k : Nat) (hk : k ≤ 4) (rest : List Input)
    (h : following 204 rest) :
    let s : State := { fresh with
      inputs := .commandStepwise (encode (.writeWord 5678#16)) :: (List.replicate k .pass ++ .tick :: rest) }
    (5678#16).toNat ≤ 9999 ∧ k ≤ 4 ∧ s.accepting ∧ s.params.wordOrder = .descending ∧
      s.inputs = .commandStepwise (encode (.writeWord 5678#16)) :: (List.replicate k .pass ++ .tick :: rest) ∧
      noTickFor (204 - k) rest = true :=
  ⟨by decide, hk, ⟨rfl, rfl⟩, rfl, rfl, noTickFor_following (Nat.sub_le _ _) h⟩

/-- What may follow, at each end: nothing, and passes with a TICK after them. -/
theorem witness_following : following 200 [] ∧ following 204 [] ∧
    following 200 (List.replicate 200 .pass ++ [.tick]) ∧ following 204 (List.replicate 204 .pass ++ [.tick]) :=
  ⟨.inl rfl, .inl rfl, .inr (.inr rfl), .inr (.inr rfl)⟩

theorem witness_DisplayHoldsUntilTheNextLatchPulse : 49 < 50 ∧ ((frameEvents 0xA4#8 0).take 49).length = 49 := by
  decide

theorem witness_OnlyARefreshMovesTheLines :
    fresh.seq = .idle ∧ (∃ t, step fresh = .next t) ∧ ∃ t, step (fresh.offerWord 0x60000#20) = .next t :=
  ⟨rfl, ⟨_, rfl⟩, ⟨_, rfl⟩⟩

theorem witness_HideUndoesShowExactlyWhen :
    (holding 0xF8 0xFF 0xC0 0xFF).accepting ∧
      (∀ p : Pos, 2 < p → (holding 0xF8 0xFF 0xC0 0xFF).ds.get p = 0xFF#8) ∧
      (holding 0xF8 0xFF 0xC0 0xFF).ds.get 2 ≠ 0xFF#8 := by decide

theorem witness_ShowUndoesHideExactlyWhen :
    (holding 0xF8 0xFF 0xFF 0xC0).accepting ∧
      (∀ p : Pos, 2 < p → (holding 0xF8 0xFF 0xFF 0xC0).ds.get p = 0xC0#8) ∧
      (holding 0xF8 0xFF 0xFF 0xC0).ds.get 2 ≠ 0xC0#8 ∧ (9999#16).toNat ≤ 9999 := by decide

/-- Words with three, two, one and no leading zero, and the largest. -/
theorem witness_WrittenWords :
    fresh.accepting ∧ (0#16).toNat < 10 ^ 1 ∧ (99#16).toNat < 10 ^ 2 ∧ ¬ (99#16).toNat < 10 ^ 1 ∧
      (999#16).toNat < 10 ^ 3 ∧ ¬ (1000#16).toNat < 10 ^ 3 ∧ (9999#16).toNat ≤ 9999 := by decide

/-- A digit store of legal patterns, one of each kind. -/
theorem mixed_store_legal : (holding 0xC0 0xFF 0xF9 0xFF).ds.Legal := by decide

theorem witness_PositionStateTransitions :
    (holding 0xC0 0xFF 0xF9 0xFF).ds.Legal ∧ (∃ t, exec .showZerosLeft (holding 0xC0 0xFF 0xF9 0xFF) = .next t) ∧
      Instr.showZerosLeft.faultFree = true ∧
      (∀ p : Pos, 3 ≤ p → posState ((holding 0xC0 0xFF 0xF9 0xFF).ds.get p) = some .blank) ∧
      (Instr.writeNibble 9#8 3#8).faultFree = true ∧ (Instr.writeWord 9999#16).faultFree = true :=
  ⟨mixed_store_legal, ⟨_, rfl⟩, by decide, by decide, by decide, by decide⟩

/-- For the statements about every step: a step that has a next state, from legal patterns. -/
theorem witness_AStepFromLegalPatterns :
    (∀ p : Pos, (holding 0xC0 0xFF 0xF9 0xFF).ds.get p ∈
      [0xFF#8, 0xC0#8, 0xF9#8, 0xA4#8, 0xB0#8, 0x99#8, 0x92#8, 0x82#8, 0xF8#8, 0x80#8, 0x90#8]) ∧
      ∃ t, step ((holding 0xC0 0xFF 0xF9 0xFF).offerWord 0x40000#20) = .next t := ⟨by decide, ⟨_, rfl⟩⟩

/-- A state in the invariant with a refresh cycle running inside a WRITE_WORD, and its step. -/
theorem witness_EveryStepKeepsTheBlockInvariant :
    (busy (.shift 0 .seg 0 .d) (.run (.writeWord 5678) 2) 0x99).Inv ∧
      ∃ t, step (busy (.shift 0 .seg 0 .d) (.run (.writeWord 5678) 2) 0x99) = .next t := by
  refine ⟨⟨?_, (by decide : (2 : Fin 4).val < 4), rfl, ?_, ⟨[], by simp, rfl⟩, rfl, rfl, rfl⟩, ⟨_, rfl⟩⟩
  · show ∀ p : Pos, LegalPattern _
    decide
  · intro l
    cases l <;> rfl

end Sys2Proof.Tests
end

section
/-! The digit store: its value at construction (spec/10_state.md R18, spec/70_reset_and_hazards.md R160) and the eleven
patterns its registers may hold, at construction and after every step (R19). -/

namespace Sys2Proof.Machine

/-! ## The eleven patterns -/

/-- The encoding table written out (spec/40_segment_encoder.md R69). -/
theorem enc_table : (List.finRange 10).map enc =
    [0xC0#8, 0xF9#8, 0xA4#8, 0xB0#8, 0x99#8, 0x92#8, 0x82#8, 0xF8#8, 0x80#8, 0x90#8] := rfl

/-- A legal pattern is the blank sentinel or one of the ten bytes of the table (R19). -/
theorem legalPattern_iff_mem (b : Byte) : LegalPattern b ↔
    b ∈ [0xFF#8, 0xC0#8, 0xF9#8, 0xA4#8, 0xB0#8, 0x99#8, 0x92#8, 0x82#8, 0xF8#8, 0x80#8, 0x90#8] := by
  rw [← enc_table, List.mem_cons, List.mem_map]
  simp only [LegalPattern, Config.blank, List.mem_finRange, true_and, eq_comm]

/-! ## Construction -/

/-- Every register of a constructed state is blank (R18). -/
@[simp] theorem construct_get (a b c : Nat) (p : Pos) : (State.construct a b c).ds.get p = Config.blank := by
  fin_cases p <;> rfl

/-- No line of a constructed state has been driven (R160). -/
@[simp] theorem construct_level (a b c : Nat) (l : Line) : (State.construct a b c).level l = .x := by
  cases l <;> rfl

theorem legal_construct (a b c : Nat) : (State.construct a b c).ds.Legal := fun p =>
  (construct_get a b c p).symm ▸ legal_blank

/-! ## Every step -/

/-- HOST's step keeps every pattern legal: it is a byte step of the command in progress, or nothing (R19). -/
theorem legal_hostStep {s : State} (h : s.ds.Legal) : (hostStep s).ds.Legal := by
  unfold hostStep
  split
  · exact h
  · next c i _ => exact legal_byteStep h c i

/-- Every step keeps every pattern legal (R19): only HOST's steps and whole commands write the store, and they write
legal patterns. -/
theorem legal_step {s t : State} (h : s.ds.Legal) (hst : step s = .next t) : t.ds.Legal := by
  have hp : s.takePass.ds.Legal := by rwa [takePass_ds]
  obtain ⟨-, -, rfl⟩ | ⟨-, rest, -, rfl⟩ | ⟨-, rfl⟩ | ⟨-, w, rest, -, rfl⟩ | ⟨-, w, rest, i, -, -, rfl⟩ |
    ⟨-, w, rest, e, -, -, rfl⟩ := step_cases hst
  · obtain ⟨hds, -⟩ := seqStep_frame s.takePass
    rwa [hds]
  · exact h
  · exact legal_hostStep hp
  · obtain ⟨hds, -⟩ := beginWord_frame { s with inputs := rest } w
    rwa [hds]
  · exact legal_outcomeOf (s := { s with inputs := rest }) h i
  · exact h

/-- Settles O48: the eleven bytes are the legal patterns, which construction gives and every step keeps. -/
theorem everyStepKeepsThePatternsLegal : Obligations.EveryStepKeepsThePatternsLegal := by
  rintro _ rfl
  simp only [← legalPattern_iff_mem]
  exact ⟨legal_construct, fun _ _ => legal_step⟩

/-- Settles O1, field by field of the construction. -/
theorem constructionClearsTheStoreAndDrivesNoLine : Obligations.ConstructionClearsTheStoreAndDrivesNoLine := by
  refine ⟨?_, rfl⟩
  rintro a b c _ rfl
  have hOutputs : (State.construct a b c).PinsAreOutputs := ⟨rfl, rfl, rfl⟩
  exact ⟨⟨rfl, rfl, rfl⟩, hOutputs, construct_get a b c, rfl, rfl, rfl, rfl, construct_level a b c, enc_table⟩

end Sys2Proof.Machine
end

section
/-! The decoder against the opcode map: which words decode to a command, and that a word is of a row of the map exactly
when it decodes to a command of that row (spec/30_encoding.md R58 to R60, R63, R66). -/

namespace Sys2Proof

/-! ## A word from its fields -/

/-- A command word is `OP` above `ARG` (R58). -/
theorem opField_append_argField (w : CommandWord) : opField w ++ argField w = w := by
  unfold opField argField
  rw [BitVec.extractLsb'_append_extractLsb'_eq_extractLsb' (by rfl), BitVec.extractLsb'_eq_self]

/-- `ARG` is `POS` above `VAL` (R60). -/
theorem posField_append_valField (w : CommandWord) : posField w ++ valField w = argField w := by
  unfold posField valField argField
  rw [BitVec.extractLsb'_append_extractLsb'_eq_extractLsb' (by rfl)]

/-- The word whose `OP` is `k`, from its `ARG`. -/
theorem append_argField {w : CommandWord} {k : Nat} (h : (opField w).toNat = k) :
    BitVec.ofNat 4 k ++ argField w = w := by
  rw [← h, BitVec.ofNat_toNat, BitVec.setWidth_eq, opField_append_argField]

/-! ## The decoder, both ways -/

theorem operandless_eq_ok {i j : Instr} {w : CommandWord} :
    operandless i w = .ok j ↔ argField w = 0#16 ∧ i = j := by
  unfold operandless
  split <;> simp_all

theorem decode_of_op_one {w : CommandWord} (h : w.toNat / 65536 = 1) :
    decode w = .ok (.writeNibble (valField w) (posField w)) := by
  simp only [decode, opField_toNat, h]

theorem decode_of_op_two {w : CommandWord} (h : w.toNat / 65536 = 2) : decode w = .ok (.writeWord (argField w)) := by
  simp only [decode, opField_toNat, h]

/-- The word of a command decodes to that command. -/
theorem decode_encode (i : Instr) : decode (encode i) = .ok i := by
  cases i with
  | writeNibble val pos =>
    have hw : (encode (.writeNibble val pos)).toNat = 1 * 65536 + (pos.toNat * 256 + val.toNat) := by
      simp only [encode, append_toNat, BitVec.toNat_ofNat]
      omega
    have hval : valField (encode (.writeNibble val pos)) = val :=
      BitVec.eq_of_toNat_eq (by rw [valField_toNat]; omega)
    have hpos : posField (encode (.writeNibble val pos)) = pos :=
      BitVec.eq_of_toNat_eq (by rw [posField_toNat]; omega)
    rw [decode_of_op_one (by omega), hval, hpos]
  | writeWord n =>
    have hw : (encode (.writeWord n)).toNat = 2 * 65536 + n.toNat := by
      simp only [encode, append_toNat, BitVec.toNat_ofNat]
      omega
    have harg : argField (encode (.writeWord n)) = n :=
      BitVec.eq_of_toNat_eq (by rw [argField_toNat]; omega)
    rw [decode_of_op_two (by omega), harg]
  | clear => rfl
  | showZerosLeft => rfl
  | hideZerosLeft => rfl
  | update => rfl

/-- A word that decodes is the word of the command it decodes to. -/
theorem encode_of_decode {w : CommandWord} {i : Instr} (h : decode w = .ok i) : encode i = w := by
  unfold decode at h
  split at h
  · next hop =>
    obtain rfl := Except.ok.inj h
    rw [encode, posField_append_valField, append_argField hop]
  · next hop =>
    obtain rfl := Except.ok.inj h
    exact append_argField hop
  iterate 4
    · next hop =>
      obtain ⟨harg, rfl⟩ := operandless_eq_ok.1 h
      rw [encode, ← harg, append_argField hop]
  · exact nomatch h

/-! ## The rows of the opcode map -/

/-- The word of a command is of that command's row (R59). -/
theorem accepts_encode (i : Instr) : (opcodeRow i).accepts (encode i) = true :=
  match i with
  | .writeNibble val pos => Laws.OpcodeMap.writeNibble val pos
  | .writeWord n => Laws.OpcodeMap.writeWord n
  | .clear => Laws.OpcodeMap.clear
  | .showZerosLeft => Laws.OpcodeMap.showZerosLeft
  | .hideZerosLeft => Laws.OpcodeMap.hideZerosLeft
  | .update => Laws.OpcodeMap.update

theorem accepts_iff {r : OpcodeRow} {w : CommandWord} : r.accepts w = true ↔ w &&& r.mask = r.matchBits := by
  simp only [OpcodeRow.accepts, decide_eq_true_eq]

/-- A row with the full mask has its match for its only word. -/
theorem and_fullMask (w : CommandWord) : w &&& 0xFFFFF#20 = w := BitVec.and_allOnes

/-- A word of the row of some command decodes to a command of that row: with the operands the word holds where the
mask keeps `OP` alone, and to the command itself where the mask keeps the whole word. -/
theorem decode_of_accepts {i : Instr} {w : CommandWord} (h : w &&& (opcodeRow i).mask = (opcodeRow i).matchBits) :
    ∃ j, decode w = .ok j ∧ opcodeRow j = opcodeRow i := by
  cases i with
  | writeNibble val pos => exact ⟨_, decode_of_op_one ((mask_opField w 1 (by decide)).1 h), rfl⟩
  | writeWord n => exact ⟨_, decode_of_op_two ((mask_opField w 2 (by decide)).1 h), rfl⟩
  | _ =>
    obtain rfl := (and_fullMask w).symm.trans h
    exact ⟨_, rfl, rfl⟩

/-- A word is of the row of a command exactly when it decodes to a command of that row (R59). -/
theorem row_iff_decode (w : CommandWord) (i : Instr) :
    w &&& (opcodeRow i).mask = (opcodeRow i).matchBits ↔ ∃ j, decode w = .ok j ∧ opcodeRow j = opcodeRow i := by
  refine ⟨decode_of_accepts, ?_⟩
  rintro ⟨j, hj, hrow⟩
  rw [← hrow, ← encode_of_decode hj]
  exact accepts_iff.1 (accepts_encode j)

/-- The opcode map written out holds the rows of the commands and no other (R59). -/
theorem mem_opcodeMap_iff (r : OpcodeRow) :
    r ∈ [⟨"WRITE_NIBBLE", 0x10000#20, 0xF0000#20⟩, ⟨"WRITE_WORD", 0x20000#20, 0xF0000#20⟩,
      ⟨"CLEAR", 0x30000#20, 0xFFFFF#20⟩, ⟨"SHOW_ZEROS_LEFT", 0x40000#20, 0xFFFFF#20⟩,
      ⟨"HIDE_ZEROS_LEFT", 0x50000#20, 0xFFFFF#20⟩, (⟨"UPDATE", 0x60000#20, 0xFFFFF#20⟩ : OpcodeRow)] ↔
    ∃ i, opcodeRow i = r := by
  constructor
  · intro h
    simp only [List.mem_cons, List.not_mem_nil, or_false] at h
    obtain rfl | rfl | rfl | rfl | rfl | rfl := h
    · exact ⟨.writeNibble 0 0, rfl⟩
    · exact ⟨.writeWord 0, rfl⟩
    · exact ⟨.clear, rfl⟩
    · exact ⟨.showZerosLeft, rfl⟩
    · exact ⟨.hideZerosLeft, rfl⟩
    · exact ⟨.update, rfl⟩
  · rintro ⟨i, rfl⟩
    cases i <;> simp [opcodeRow]

/-- Settles O6: every row is the row of a command, a word is of it exactly when it decodes to a command of it, and so
two rows of one word are the row of the one command it decodes to. -/
theorem opcodeMapDecidesTheCommand : Obligations.OpcodeMapDecidesTheCommand := by
  rintro _ rfl
  simp only [mem_opcodeMap_iff]
  refine ⟨?_, fun i => ⟨i, rfl⟩, ?_, fun val pos => decode_encode (.writeNibble val pos),
    fun n => decode_encode (.writeWord n)⟩
  · rintro w _ ⟨i, rfl⟩
    exact row_iff_decode w i
  · rintro w _ ⟨i, rfl⟩ _ ⟨i', rfl⟩ h h'
    obtain ⟨j, hj, hrow⟩ := decode_of_accepts h
    obtain ⟨j', hj', hrow'⟩ := decode_of_accepts h'
    obtain rfl : j = j' := Except.ok.inj (hj.symm.trans hj')
    exact hrow.symm.trans hrow'

end Sys2Proof
end

section
/-! A refresh cycle as one update of the state: its bytes, latch pulses and frames are the turns of UPDATE's loop, also
past the passes and words that arrive meanwhile (spec/43_multiplex_refresh.md R97, R98, R104 to R110). -/

namespace Sys2Proof.Machine

/-! ## The parts of a frame -/

/-- The byte `b` of frame `p` is about to be sent in the phase `ph`. -/
def State.beginByte (s : State) (p : Pos) (ph : BytePhase) (b : Byte) : State :=
  { s with sr := .byte b, seq := .shift p ph 0 .d }

/-- Frame `p` is about to begin: what the start step leaves for frame 0 (R104) and the latch-high step for the others
(R109). -/
def State.beginFrame (s : State) (p : Pos) : State := s.beginByte p .seg (s.ds.get p)

theorem startRefresh_eq (s : State) : s.startRefresh = s.beginFrame 0 := rfl

/-- What follows the eighth segment bit is the strobe byte (R107). -/
theorem afterBit_seg (s : State) (p : Pos) : s.afterBit p .seg 7 = s.beginByte p .stb (onehot p) := rfl

/-- What follows the eighth strobe bit is the latch phase (R107). -/
theorem afterBit_stb (s : State) (p : Pos) : s.afterBit p .stb 7 = { s with seq := .latch p .l } := rfl

/-- What follows a byte does not look at `SEQ`. -/
theorem afterBit_seq (s : State) (p : Pos) (ph : BytePhase) (q : SeqState) :
    ({ s with seq := q } : State).afterBit p ph 7 = s.afterBit p ph 7 := by
  cases ph <;> rfl

/-- What follows a frame does not look at `SEQ`. -/
theorem afterFrame_seq (s : State) (p : Pos) (q : SeqState) :
    ({ s with seq := q } : State).afterFrame p = s.afterFrame p := by
  unfold State.afterFrame State.endRefresh
  split
  · rfl
  · cases s.hst with
    | idle => rfl
    | run c i => cases c <;> rfl

/-- A frame but the last is followed by the next (R109). -/
theorem afterFrame_of_lt (s : State) {p : Pos} (hp : p < 3) : s.afterFrame p = s.beginFrame (p + 1) := if_pos hp

/-! ## Their runs -/

/-- The 24 steps of a byte are SEND_PATTERN. -/
theorem runSteps_sendPattern {s : State} (hw : wordsFirst s.inputs) (p : Pos) (ph : BytePhase) (b : Byte) :
    runSteps 24 (s.beginByte p ph b) = .next ((s.sendPattern b).afterBit p ph 7) := by
  rw [runSteps_byte (by exact hw) rfl rfl, ← afterBit_seq (s.sendPattern b) p ph (.shift p ph 0 .d), sendPattern_eq]
  rfl

/-- The two steps of the latch phase are LATCH_PULSE. -/
theorem runSteps_latchPulse {s : State} (hw : wordsFirst s.inputs) (p : Pos) :
    runSteps 2 { s with seq := .latch p .l } = .next (s.latchPulse.afterFrame p) := by
  rw [runSteps_latch (by exact hw) rfl, ← afterFrame_seq s.latchPulse p (.latch p .h), latchPulse_eq]

/-- The 50 steps of a frame are one turn of UPDATE's loop. -/
theorem runSteps_frame {s : State} (hw : wordsFirst s.inputs) (p : Pos) :
    runSteps 50 (s.beginFrame p) = .next ((s.sendFrame p).afterFrame p) := by
  have hseg := runSteps_sendPattern hw p .seg (s.ds.get p)
  have hstb := runSteps_sendPattern (s := s.sendPattern (s.ds.get p)) (by simpa [sendPattern_eq] using hw) p .stb
    (onehot p)
  rw [afterBit_seg] at hseg
  rw [afterBit_stb] at hstb
  rw [show 50 = 24 + (24 + 2) from rfl, State.beginFrame, runSteps_add 24 _ hseg, runSteps_add 24 2 hstb,
    runSteps_latchPulse (by simpa [sendPattern_eq] using hw)]
  rfl

/-- The 200 steps of a cycle are UPDATE's loop and the return from it (R110). -/
theorem runSteps_cycle {s : State} (hw : wordsFirst s.inputs) :
    runSteps 200 s.startRefresh = .next s.refreshCycle.endRefresh := by
  have hframe (t : State) (p : Pos) (ht : t.inputs = s.inputs) (hp : p < 3) :
      runSteps 50 (t.beginFrame p) = .next ((t.sendFrame p).beginFrame (p + 1)) := by
    rw [runSteps_frame (ht ▸ hw), afterFrame_of_lt _ hp]
  have h0 := hframe s 0 rfl (by decide)
  have h1 := hframe (s.sendFrame 0) 1 (by simp [sendFrame_eq]) (by decide)
  have h2 := hframe ((s.sendFrame 0).sendFrame 1) 2 (by simp [sendFrame_eq]) (by decide)
  rw [startRefresh_eq, show 200 = 50 + (50 + (50 + 50)) from rfl, runSteps_add 50 _ h0]
  refine (runSteps_add 50 _ h1).trans ((runSteps_add 50 _ h2).trans ?_)
  exact runSteps_frame (by simpa [sendFrame_eq] using hw) 3

/-! ## Past what arrives -/

/-- The run of a BUSY value within its cycle does what it would do with nothing arriving: it uses up the passes, and
words wait. -/
theorem runSteps_of_busy {s t : State} {n : Nat} (hs : s.seq ≠ .idle) (hle : n + s.seq.eventsMade ≤ 200)
    (hn : noTickFor n s.inputs = true) (h : runSteps n { s with inputs := [] } = .next t) :
    runSteps n s = .next { t with inputs := passesUsed n s.inputs } := by
  induction n generalizing s with
  | zero =>
    obtain rfl := Host.Outcome.next.inj h
    rfl
  | succ n ih =>
    obtain ⟨htick, hrest⟩ := noTickFor_succ hn
    rw [runSteps_succ n (step_of_busy_inputs (by exact hs) (by simp)), seqStep_inputs] at h
    rw [runSteps_succ n (step_of_busy_inputs hs htick), passesUsed_succ n s.inputs]
    obtain ⟨-, ⟨hs', hmade⟩ | ⟨-, hmade⟩⟩ := seqStep_progress hs
    · exact ih (s := { seqStep s with inputs := passesUsed 1 s.inputs }) hs' (by simp only; omega) hrest h
    · obtain rfl : n = 0 := by omega
      obtain rfl := Host.Outcome.next.inj h
      rfl

/-- A refresh cycle that a TICK starts while no UPDATE is in progress is UPDATE's loop, and nothing else changes, as
long as no second TICK arrives (R103, R110, R147). -/
theorem runSteps_startRefresh {s : State} (hq : s.seq = .idle) (hu : ∀ i, s.hst ≠ .run .update i)
    (hn : noTickFor 200 s.inputs = true) :
    runSteps 200 s.startRefresh = .next { s.refreshCycle with inputs := passesUsed 200 s.inputs } := by
  have hcycle := runSteps_cycle (s := { s with inputs := [] }) (by simp [wordsFirst])
  obtain ⟨hend, -⟩ | ⟨⟨i, hi⟩, -⟩ := endRefresh_cases { s with inputs := [] }.refreshCycle
  · rw [hend] at hcycle
    rw [runSteps_of_busy (s := s.startRefresh) (by simp) (by simp [SeqState.eventsMade]) hn hcycle]
    simp only [refreshCycle_eq, startRefresh_inputs, hq]
  · rw [refreshCycle_eq] at hi
    exact absurd hi (hu i)

end Sys2Proof.Machine
end

section
/-! WRITE_NIBBLE, WRITE_WORD and CLEAR: what they store and return (spec/41_digit_store.md R73 to R82), what their byte
steps do (spec/20_memory.md R46), and a refresh cycle in the middle of a WRITE_WORD (R80). -/

namespace Sys2Proof.Machine

/-! ## Digits and their patterns -/

/-- The inverse table reads every digit's pattern back (R72 (a)). -/
theorem encInverse_enc (d : Digit) : encInverse (enc d) = some d := by revert d; decide

/-- No digit's pattern is the blank sentinel (R69). -/
theorem enc_ne_blank (d : Digit) : enc d ≠ Config.blank := by revert d; decide

/-- An entry of the table written out is the pattern of its index. -/
theorem enc_of_table {v : Nat} {b : Byte}
    (h : [0xC0#8, 0xF9#8, 0xA4#8, 0xB0#8, 0x99#8, 0x92#8, 0x82#8, 0xF8#8, 0x80#8, 0x90#8][v]? = some b) :
    ∃ hv : v < 10, enc ⟨v, hv⟩ = b := by
  rw [← enc_table, List.getElem?_map] at h
  obtain ⟨d, hd, hb⟩ := Option.map_eq_some_iff.1 h
  obtain ⟨hv, rfl⟩ := List.getElem?_eq_some_iff.1 hd
  rw [List.length_finRange] at hv
  exact ⟨hv, by simpa using hb⟩

/-- The four digits that WRITE_WORD stores are the decimal digits of its operand (R76). -/
theorem digitAt_sum (m : Fin 10000) :
    m.val = (digitAt m 0).val + 10 * (digitAt m 1).val + 100 * (digitAt m 2).val + 1000 * (digitAt m 3).val := by
  simp only [digitAt]
  omega

/-! ## The whole commands -/

/-- A command whose operand check fails raises that fault, with no other effect (R137). -/
theorem exec_fault {i : Instr} {f : CommandFault} {s : State} (ha : s.accepting) (h : checkOperands i = .error f) :
    exec i s = .next { s with results := s.results ++ [.raised f] } := by
  rw [exec_of_accepting i ha, outcome_fault s h]

theorem checkOperands_invalidDigit {val : BitVec 8} (pos : BitVec 8) (hv : 9 < val.toNat) :
    checkOperands (.writeNibble val pos) = .error .invalidDigit := by
  simp only [checkOperands, checkNibble, dif_neg (Nat.not_lt.2 hv), Except.map]

theorem checkOperands_invalidPosition {val pos : BitVec 8} (hv : val.toNat ≤ 9) (hp : 3 < pos.toNat) :
    checkOperands (.writeNibble val pos) = .error .invalidPosition := by
  simp only [checkOperands, checkNibble, dif_pos (Nat.lt_succ_of_le hv), dif_neg (Nat.not_lt.2 hp), Except.map]

theorem checkOperands_writeWord {n : BitVec 16} (hn : n.toNat < 10000) :
    checkOperands (.writeWord n) = .ok (.writeWord ⟨n.toNat, hn⟩) := by
  simp only [checkOperands, checkWord, dif_pos hn, Except.map]

theorem checkOperands_valueOutOfRange {n : BitVec 16} (hn : 9999 < n.toNat) :
    checkOperands (.writeWord n) = .error .valueOutOfRange := by
  simp only [checkOperands, checkWord, dif_neg (Nat.not_lt.2 hn), Except.map]

/-- Settles O13, by the cases of the operand check. -/
theorem writeNibbleStoresTheDigitsPattern : Obligations.WriteNibbleStoresTheDigitsPattern := by
  intro s val pos ha
  refine ⟨?_, ?_, ?_, ?_⟩
  · simp only [encode, append_toNat, BitVec.toNat_ofNat]
    omega
  · intro b hb hp
    obtain ⟨hv, rfl⟩ := enc_of_table hb
    refine ⟨_, by rw [exec_of_accepting _ ha, outcome_writeNibble s hv (Nat.lt_succ_of_le hp)], fun p => ?_⟩
    simp only [get_set, Fin.ext_iff]
  · exact fun hv => ⟨exec_fault ha (checkOperands_invalidDigit pos hv), rfl⟩
  · exact fun hv hp => ⟨exec_fault ha (checkOperands_invalidPosition hv hp), rfl⟩

/-- Settles O46: each position holds the pattern of a digit, which is not blank and which the inverse table reads
back. -/
theorem writtenWordReadsBackAsItsDigits : Obligations.WrittenWordReadsBackAsItsDigits := by
  intro s n ha hn
  have hn' : n.toNat < 10000 := Nat.lt_succ_of_le hn
  refine ⟨_, by rw [exec_of_accepting _ ha, outcome_writeWord s hn'], ?_, ?_⟩
  · exact ⟨_, _, _, _, encInverse_enc _, encInverse_enc _, encInverse_enc _, encInverse_enc _,
      digitAt_sum ⟨n.toNat, hn'⟩⟩
  · intro p
    fin_cases p <;> exact enc_ne_blank _

/-! ## The byte steps -/

/-- One write of a command that writes all four positions: it goes on to the next, or after the fourth ends with OK
(R46). -/
theorem writeInOrder_eq (s : State) (c : Command) (i : Fin 4) (o : WriteOrder) (v : Pos → Byte) :
    s.writeInOrder c i o v =
      { s with
        ds := s.ds.set (o.nth i) (v (o.nth i))
        hst := if i = 3 then .idle else .run c (i + 1)
        results := if i = 3 then s.results ++ [.ok] else s.results } := by
  by_cases hi : i = 3
  · subst hi; rfl
  · have hlt : i < 3 := by omega
    simp only [State.writeInOrder, if_pos hlt, if_neg hi]
    rfl

/-- HOST's step is the byte step that `HST` records. -/
theorem hostStep_of_run {s : State} {c : Command} {i : Fin 4} (h : s.hst = .run c i) : hostStep s = byteStep s c i := by
  simp only [hostStep, h]

theorem nth_descending (i : Fin 4) : WriteOrder.descending.nth i = 3 - i := by fin_cases i <;> rfl

theorem nth_ascending (i : Fin 4) : WriteOrder.ascending.nth i = i := by fin_cases i <;> rfl

/-- The step that takes byte step `i` of a command that writes `v p` to every position `p` in the order `o`: it writes
position `o.nth i` alone, and goes on or ends with OK; a `pass` is used up and a word waits (R46, R158). -/
theorem step_of_writeInOrder {s : State} {c : Command} {i : Fin 4} (o : WriteOrder) (v : Pos → Byte)
    (hq : s.seq = .idle) (hn : s.inputs.head? ≠ some .tick) (hh : s.hst = .run c i)
    (hb : byteStep s.takePass c i = s.takePass.writeInOrder c i o v) :
    ∃ t, step s = .next t ∧
      (∀ p, t.ds.get p = if p = o.nth i then v p else s.ds.get p) ∧
      (t.hst = if i = 3 then .idle else .run c (i + 1)) ∧
      (t.results = if i = 3 then s.results ++ [.ok] else s.results) ∧
      t.inputs = s.takePass.inputs ∧
      t = { s.takePass with ds := t.ds, hst := t.hst, results := t.results } := by
  have hstep : step s = .next (s.takePass.writeInOrder c i o v) := by
    rw [step_of_host hq (by simp [hh]) hn, hostStep_of_run (by rw [takePass_hst, hh]), hb]
  rw [writeInOrder_eq] at hstep
  refine ⟨_, hstep, fun p => ?_, rfl, by simp only [takePass_results], rfl, rfl⟩
  rw [get_set, takePass_ds]
  split
  · next hp => rw [hp]
  · rfl

/-- Settles O14: the outcome of the whole command, its operand check, and the write of each byte step. -/
theorem writeWordStoresTheFourDigits : Obligations.WriteWordStoresTheFourDigits := by
  intro s n
  refine ⟨?_, ?_, ?_, ?_⟩
  · simp only [encode, append_toNat, BitVec.toNat_ofNat]
    omega
  · intro ha hn d3 d2 d1 d0 h3 h2 h1 h0
    have hn' : n.toNat < 10000 := Nat.lt_succ_of_le hn
    obtain rfl : digitAt ⟨n.toNat, hn'⟩ 3 = d3 := Fin.ext h3.symm
    obtain rfl : digitAt ⟨n.toNat, hn'⟩ 2 = d2 := Fin.ext h2.symm
    obtain rfl : digitAt ⟨n.toNat, hn'⟩ 1 = d1 := Fin.ext h1.symm
    obtain rfl : digitAt ⟨n.toNat, hn'⟩ 0 = d0 := Fin.ext h0.symm
    refine ⟨?_, by rw [exec_of_accepting _ ha, outcome_writeWord s hn']⟩
    have hsum := digitAt_sum ⟨n.toNat, hn'⟩
    simp only at hsum
    omega
  · exact fun ha hn => ⟨exec_fault ha (checkOperands_valueOutOfRange hn), rfl⟩
  · intro m i hq hn hh ho
    rw [← nth_descending]
    exact step_of_writeInOrder .descending (fun p => enc (digitAt m p)) hq hn hh
      (by simp only [byteStep, takePass_params, ho])

/-- Settles O15: the outcome of the whole command, and the write of each byte step. -/
theorem clearBlanksAllPositions : Obligations.ClearBlanksAllPositions := by
  intro s
  refine ⟨rfl, ?_, ?_⟩
  · intro ha
    have ha' : (outcomeOf .clear s).accepting := by rw [outcome_clear]; exact ha
    refine ⟨_, exec_of_accepting _ ha, outcome_clear s, ⟨_, exec_of_accepting _ ha', ?_⟩, fun a b c => ?_,
      ⟨_, exec_of_accepting _ ha', ?_⟩⟩
    · rw [outcome_clear, outcome_clear]
    · rw [outcome_clear]; rfl
    · rw [outcome_showZerosLeft, outcome_clear]; rfl
  · intro i hq hn hh ho
    have h := step_of_writeInOrder .ascending (fun _ => Config.blank) hq hn hh
      (by simp only [byteStep, takePass_params, ho])
    rwa [nth_ascending] at h

/-! ## A refresh cycle in the middle of a WRITE_WORD -/

/-- The store when the first `k` of four writes have been made, in the order 3, 2, 1, 0: `new` at the positions written
and `old` at the others (R80). -/
def DigitStore.torn (old new : DigitStore) (k : Nat) : DigitStore where
  d0 := if 4 ≤ 0 + k then new.d0 else old.d0
  d1 := if 4 ≤ 1 + k then new.d1 else old.d1
  d2 := if 4 ≤ 2 + k then new.d2 else old.d2
  d3 := if 4 ≤ 3 + k then new.d3 else old.d3

theorem torn_get (old new : DigitStore) (k : Nat) (p : Pos) :
    (old.torn new k).get p = if 4 ≤ p.val + k then new.get p else old.get p := by
  fin_cases p <;> rfl

/-- The next write tears the store one position further down. -/
theorem torn_succ (old new : DigitStore) (i : Fin 4) :
    old.torn new (i + 1) = (old.torn new i).set (3 - i) (new.get (3 - i)) := by
  fin_cases i <;> rfl

/-- The four patterns of a word (R77). -/
def wordStore (m : Fin 10000) : DigitStore :=
  ⟨enc (digitAt m 0), enc (digitAt m 1), enc (digitAt m 2), enc (digitAt m 3)⟩

theorem wordStore_get (m : Fin 10000) (p : Pos) : (wordStore m).get p = enc (digitAt m p) := by
  fin_cases p <;> rfl

/-- `s` when `k` of the four byte steps of WRITE_WORD `m` have been made, in the order 3, 2, 1, 0. -/
def State.wordWritten (s : State) (m : Fin 10000) (k : Nat) : State :=
  { s with
    ds := s.ds.torn (wordStore m) k
    hst := if h : k < 4 then .run (.writeWord m) ⟨k, h⟩ else .idle
    results := if k < 4 then s.results else s.results ++ [.ok] }

theorem wordWritten_hst (s : State) (m : Fin 10000) (i : Fin 4) : (s.wordWritten m i).hst = .run (.writeWord m) i :=
  dif_pos i.isLt

/-- No UPDATE is in progress inside a WRITE_WORD, nor after it. -/
theorem wordWritten_no_update (s : State) (m : Fin 10000) (k : Nat) (i : Fin 4) :
    (s.wordWritten m k).hst ≠ .run .update i := by
  unfold State.wordWritten
  dsimp only
  split <;> simp

/-- HOST's step makes the next byte step. -/
theorem hostStep_wordWritten {s : State} (ho : s.params.wordOrder = .descending) (m : Fin 10000) (i : Fin 4) :
    hostStep (s.wordWritten m i) = s.wordWritten m (i + 1) := by
  have hb : hostStep (s.wordWritten m i) =
      (s.wordWritten m i).writeInOrder (.writeWord m) i .descending fun p => enc (digitAt m p) := by
    rw [hostStep_of_run (wordWritten_hst s m i), ← ho]; rfl
  rw [hb, writeInOrder_eq, nth_descending, ← wordStore_get]
  unfold State.wordWritten
  rw [torn_succ]
  fin_cases i <;> rfl

/-- The next `j` byte steps of a WRITE_WORD, as long as no TICK arrives. -/
theorem runSteps_wordWritten {s : State} (hq : s.seq = .idle) (ho : s.params.wordOrder = .descending) (m : Fin 10000)
    {j k : Nat} (hk : k + j ≤ 4) (hn : noTickFor j s.inputs = true) :
    runSteps j (s.wordWritten m k) =
      .next (({ s with inputs := passesUsed j s.inputs } : State).wordWritten m (k + j)) := by
  induction j generalizing s k with
  | zero => rfl
  | succ j ih =>
    obtain ⟨htick, hrest⟩ := noTickFor_succ hn
    obtain ⟨i, rfl⟩ : ∃ i : Fin 4, i.val = k := ⟨⟨k, by omega⟩, rfl⟩
    rw [runSteps_succ j (step_of_host_inputs (s := s.wordWritten m i) hq (by simp [wordWritten_hst]) htick),
      hostStep_wordWritten ho, passesUsed_succ j s.inputs]
    have h := ih (s := { s with inputs := passesUsed 1 s.inputs }) (k := i + 1) hq ho (by omega) hrest
    rwa [Nat.add_right_comm] at h

/-- `s` with a refresh cycle over the store `ds` behind it: its trace, and the shift byte and levels it leaves (R97). -/
def State.cycleShown (s : State) (ds : DigitStore) : State :=
  { s with
    trace := s.trace ++ cycleEvents ds
    sr := .byte 0x00#8
    data := .low
    shclk := .high
    latch := .high }

/-- A refresh cycle inside a WRITE_WORD shows the torn store, and leaves the command where it is. -/
theorem refreshCycle_wordWritten (s : State) (m : Fin 10000) (k : Nat) :
    (s.wordWritten m k).refreshCycle = (s.cycleShown (s.ds.torn (wordStore m) k)).wordWritten m k := by
  rw [refreshCycle_eq]; rfl

/-- A TICK inside a WRITE_WORD: the start step and the cycle's 200, as long as no second TICK arrives. -/
theorem runSteps_tick_wordWritten {s : State} {rest : List Input} (hq : s.seq = .idle) (m : Fin 10000) (k : Nat)
    (hi : s.inputs = .tick :: rest) (hn : noTickFor 200 rest = true) :
    runSteps (200 + 1) (s.wordWritten m k) =
      .next ((({ s with inputs := passesUsed 200 rest } : State).cycleShown (s.ds.torn (wordStore m) k)).wordWritten
        m k) := by
  have hshow := runSteps_startRefresh (s := ({ s with inputs := rest } : State).wordWritten m k) hq
    (wordWritten_no_update _ m k) hn
  rw [refreshCycle_wordWritten] at hshow
  exact (runSteps_succ 200 (step_of_tick (s := s.wordWritten m k) hq hi)).trans hshow

/-- A stepwise WRITE_WORD that arrives begins, with no byte step made (R31, R46). -/
theorem step_begins_writeWord {s : State} {n : BitVec 16} {m : Fin 10000} {rest : List Input}
    (hc : checkOperands (.writeWord n) = .ok (.writeWord m)) (ha : s.accepting)
    (hi : s.inputs = .commandStepwise (encode (.writeWord n)) :: rest) :
    step s = .next (({ s with inputs := rest } : State).wordWritten m 0) := by
  rw [step_of_stepwise ha hi]
  simp only [beginWord, decode_encode, beginCommand, hc]
  rfl

/-- The outcome of the whole WRITE_WORD is the store of its four patterns (R77). -/
theorem outcome_wordStore (s : State) {n : BitVec 16} {m : Fin 10000}
    (hc : checkOperands (.writeWord n) = .ok (.writeWord m)) :
    outcomeOf (.writeWord n) s = { s with ds := wordStore m, results := s.results ++ [.ok] } := by
  simp only [outcomeOf, hc, State.writeAll, setAll_eq]
  rfl

/-- The passes before a TICK are used up one a step. -/
theorem passes_before (k : Nat) (l : List Input) :
    noTickFor k (List.replicate k .pass ++ l) = true ∧ passesUsed k (List.replicate k .pass ++ l) = l := by
  induction k with
  | zero => exact ⟨rfl, rfl⟩
  | succ k ih => exact ih

/-- Settles O36: the word begins, `k` byte steps are made, the cycle shows the store they left and leaves all else, and
the other `4 - k` are made. -/
theorem tornWordIsTransmittedAndThenCompleted : Obligations.TornWordIsTransmittedAndThenCompleted := by
  intro s n k rest hn hk ha ho hi hrest
  have ⟨hq, hidle⟩ := ha
  obtain ⟨m, hc⟩ : ∃ m, checkOperands (.writeWord n) = .ok (.writeWord m) :=
    ⟨_, checkOperands_writeWord (Nat.lt_succ_of_le hn)⟩
  obtain ⟨hpasses, hused⟩ := passes_before k (.tick :: rest)
  have hsplit : 204 - k = 200 + (4 - k) := by omega
  rw [hsplit] at hrest
  obtain ⟨hcycle, hlast⟩ := noTickFor_add hrest
  have hbegin := step_begins_writeWord hc ha hi
  have hfirst := runSteps_wordWritten (s := { s with inputs := List.replicate k .pass ++ .tick :: rest }) hq ho m
    (k := 0) (by omega) hpasses
  rw [hused, Nat.zero_add] at hfirst
  have htick := runSteps_tick_wordWritten (s := { s with inputs := .tick :: rest }) hq m k rfl hcycle
  have hothers := runSteps_wordWritten
    (s := State.cycleShown { s with inputs := passesUsed 200 rest } (s.ds.torn (wordStore m) k)) hq ho m
    (k := k) (j := 4 - k) (by omega) hlast
  have hrun := (runSteps_succ _ hbegin).trans
    ((runSteps_add k _ hfirst).trans ((runSteps_add (200 + 1) _ htick).trans hothers))
  rw [show k + (200 + 1 + (4 - k)) + 1 = 206 by omega, Nat.add_sub_cancel' hk] at hrun
  refine ⟨_, _, s.ds.torn (wordStore m) k, exec_of_accepting _ (by exact ha), fun p => ?_, hrun, ?_⟩
  · rw [outcome_wordStore _ hc]
    exact torn_get ..
  · rw [outcome_wordStore _ hc, hsplit, passesUsed_add, hidle]
    rfl

end Sys2Proof.Machine
end

section
/-! The transmitter: the pin events of one SEND_PATTERN and what an observer samples from them, and the shift byte after
any number of shifts (spec/42_serial_transmitter.md R85 to R87, R91). -/

namespace Sys2Proof.Machine

/-- Settles O23: the effect of SEND_PATTERN; bit 0 of a strobe byte is set for position 0 alone. -/
theorem sendPatternMakesTwentyFourEvents : Obligations.SendPatternMakesTwentyFourEvents := by
  intro s b
  refine ⟨sendPattern_eq s b, fun p => ?_⟩
  have hbit : (onehot p).getLsbD 0 = decide (p = 0) := by
    rw [onehot_getLsbD p 0 (by decide), decide_eq_decide, Fin.ext_iff]
    exact eq_comm
  simp only [sendPattern_eq, hbit, Level.of, decide_eq_true_eq]

/-- Settles O24: the events SEND_PATTERN appends are those of its byte, whose edges and samples do not depend on the
levels before. -/
theorem sampledBitsAreTheByteMsbFirst : Obligations.SampledBitsAreTheByteMsbFirst := by
  intro s b
  refine ⟨patternEvents b, by rw [sendPattern_eq], fun w => ?_⟩
  obtain ⟨hclock, -⟩ := risingEdges_pattern b w
  exact ⟨hclock, sampledBits_pattern b w⟩

/-- `j` shifts of a loaded byte leave it shifted by `j` in `SR`, and all else as it was (R87). -/
theorem iterate_shiftLeft_loadShift (s : State) (b : Byte) (j : Nat) :
    State.shiftLeft^[j] (s.loadShift b) = { s with sr := .byte (b <<< j) } := by
  induction j with
  | zero => rw [Function.iterate_zero_apply, BitVec.shiftLeft_zero]; rfl
  | succ j ih => rw [Function.iterate_succ_apply', ih, BitVec.shiftLeft_add]; rfl

/-- Settles O25: the byte shifted by `j`, as a number and at its top bit. -/
theorem shiftByteAfterEachShift : Obligations.ShiftByteAfterEachShift := by
  intro s b j
  refine ⟨b <<< j, iterate_shiftLeft_loadShift s b j, ?_, fun hj => ?_⟩
  · rw [BitVec.toNat_shiftLeft, Nat.shiftLeft_eq]
  · have hj7 : ¬ 7 < j := by omega
    rw [BitVec.getLsbD_shiftLeft]
    simp only [hj7, Nat.reduceLT, decide_true, decide_false, Bool.not_false, Bool.true_and]

end Sys2Proof.Machine
end

section
/-! The sequencer's small steps, one lemma for each value of `sub`, and the run of a whole cycle from the TICK that
starts it (spec/43_multiplex_refresh.md R104 to R108, R110). -/

namespace Sys2Proof.Machine

/-! ## The start step -/

/-- Settles O26: a TICK and the stepwise UPDATE word both take the start step. -/
theorem startStepLoadsTheFirstPattern : Obligations.StartStepLoadsTheFirstPattern := by
  intro s rest hq
  refine ⟨fun hi => step_of_tick hq hi, fun w hh hi hd => ⟨.run .update 0, ?_⟩⟩
  rw [step_of_stepwise ⟨hq, hh⟩ hi]
  simp only [beginWord, hd]
  rfl

/-! ## The steps of a bit and of a latch pulse -/

/-- The data step (R105). -/
theorem seqStep_data {s : State} {p : Pos} {ph : BytePhase} {k : Fin 8} (h : s.seq = .shift p ph k .d) :
    seqStep s =
      { s with
        data := Level.of (s.sr.bits.getLsbD 7)
        trace := s.trace ++ [⟨.data, s.sr.bits.getLsbD 7⟩]
        seq := .shift p ph k .l } := by
  unfold seqStep; rw [h]; rfl

/-- The clock-low step (R106). -/
theorem seqStep_clockLow {s : State} {p : Pos} {ph : BytePhase} {k : Fin 8} (h : s.seq = .shift p ph k .l) :
    seqStep s =
      { s with shclk := .low, trace := s.trace ++ [⟨.shclk, false⟩], seq := .shift p ph k .h } := by
  unfold seqStep; rw [h]; rfl

/-- The latch-low step (R108). -/
theorem seqStep_latchLow {s : State} {p : Pos} (h : s.seq = .latch p .l) :
    seqStep s = { s with latch := .low, trace := s.trace ++ [⟨.latch, false⟩], seq := .latch p .h } := by
  unfold seqStep; rw [h]; rfl

/-- The clock-high step (R107). -/
theorem seqStep_clockHigh {s : State} {p : Pos} {ph : BytePhase} {k : Fin 8} (h : s.seq = .shift p ph k .h) :
    seqStep s =
      ({ s with shclk := .high, trace := s.trace ++ [⟨.shclk, true⟩], sr := .byte (s.sr.bits <<< 1) } :
        State).afterBit p ph k := by
  unfold seqStep; rw [h]; rfl

/-- What follows a bit but the eighth is the next (R107). -/
theorem afterBit_of_lt (s : State) (p : Pos) (ph : BytePhase) {k : Fin 8} (hk : k < 7) :
    s.afterBit p ph k = { s with seq := .shift p ph (k + 1) .d } := if_pos hk

/-- The bits of a loaded shift byte are the byte. -/
theorem bits_of_byte (r : ShiftByte) (b : Byte) (h : r = .byte b) : r.bits = b := by rw [h]; rfl

/-- Settles O27: the sequencer's step at each of the three values. -/
theorem dataAndLowSteps : Obligations.DataAndLowSteps := by
  intro s p ph k hno
  have hstep (hq : s.seq ≠ .idle) : step s = .next (seqStep s.takePass) := step_of_busy hq (hno hq)
  have hbits : s.takePass.sr.bits = s.sr.bits := by rw [takePass_sr]
  refine ⟨fun h => ⟨s.sr.bits, bits_of_byte s.sr, ?_⟩, fun h => ?_, fun h => ?_⟩
  · rw [hstep (by simp [h]), seqStep_data (by rw [takePass_seq, h]), takePass_trace, hbits]
    rfl
  · rw [hstep (by simp [h]), seqStep_clockLow (by rw [takePass_seq, h]), takePass_trace]
  · rw [hstep (by simp [h]), seqStep_latchLow (by rw [takePass_seq, h]), takePass_trace]

/-- Settles O28, by what follows the bit: the next bit, the strobe byte or the latch phase. -/
theorem clockHighStep : Obligations.ClockHighStep := by
  intro s p ph k hno h
  have hq : s.seq ≠ .idle := by simp [h]
  refine ⟨s.sr.bits, bits_of_byte s.sr, ?_⟩
  rw [step_of_busy hq (hno hq), seqStep_clockHigh (by rw [takePass_seq, h]), takePass_trace, takePass_sr]
  by_cases hk : k.val < 7
  · rw [afterBit_of_lt _ p ph hk]
    exact ⟨_, _, rfl, fun _ => ⟨rfl, rfl⟩, by omega, by omega⟩
  · obtain rfl : k = 7 := by omega
    cases ph with
    | seg => exact ⟨_, _, rfl, fun h7 => absurd h7 hk, fun _ _ => ⟨rfl, rfl⟩, nofun⟩
    | stb => exact ⟨_, _, rfl, fun h7 => absurd h7 hk, nofun, fun _ _ => ⟨rfl, rfl⟩⟩

/-! ## The cycle that a TICK starts -/

/-- No UPDATE is in progress while `SEQ` is IDLE, where `HST` agrees with it (log 6). -/
theorem State.HostAgrees.ne_update {s : State} (ha : s.HostAgrees) (hq : s.seq = .idle) (i : Fin 4) :
    s.hst ≠ .run .update i := by
  intro hh
  simp only [State.HostAgrees, hh] at ha
  exact ha hq

/-- A TICK's start step and the cycle's 200 are UPDATE's loop and the return from it, whatever host command is in
progress, as long as no second TICK arrives (R110). -/
theorem runSteps_tick {s : State} {rest : List Input} (hq : s.seq = .idle) (hi : s.inputs = .tick :: rest)
    (hn : noTickFor 200 rest = true) :
    runSteps 201 s =
      .next { ({ s with inputs := [] } : State).refreshCycle.endRefresh with inputs := passesUsed 200 rest } := by
  rw [runSteps_succ 200 (step_of_tick hq hi)]
  exact runSteps_of_busy (by simp) (by simp [SeqState.eventsMade]) hn
    (runSteps_cycle (s := { s with inputs := [] }) (by simp [wordsFirst]))

/-- Settles O32: the cycle is UPDATE's loop, and the return from it touches `HST` and the result codes only where an
UPDATE was in progress. -/
theorem smallStepsAgreeWithOneStepUpdate : Obligations.SmallStepsAgreeWithOneStepUpdate := by
  intro s rest hq hi hn
  refine ⟨_, _, exec_of_accepting .update ⟨hq, rfl⟩, runSteps_tick hq hi hn, ?_⟩
  rw [outcome_update]
  obtain ⟨hend, -⟩ | ⟨⟨i, hh⟩, hend⟩ := endRefresh_cases ({ s with inputs := [] } : State).refreshCycle
  · rw [hend, refreshCycle_eq, hq]
    exact ⟨rfl, fun _ => ⟨rfl, rfl⟩⟩
  · rw [hend, refreshCycle_eq, hq]
    rw [refreshCycle_eq] at hh
    exact ⟨rfl, fun ha => absurd hh (ha.ne_update hq i)⟩

end Sys2Proof.Machine
end

section
/-! A refresh cycle on the wire: its frames written out, and what the observers make of one frame and of the four,
whatever came before: counts, edges, sampled bits, frame trace, receiver (spec/43_multiplex_refresh.md R97 to R99,
R111, R116). -/

namespace Sys2Proof.Machine

/-! ## The events, written out -/

/-- A cycle is the four frames, in the order of the positions (R97). -/
theorem cycleEvents_eq_flatMap (ds : DigitStore) :
    cycleEvents ds = ([0, 1, 2, 3] : List Pos).flatMap fun p => frameEvents (ds.get p) p := by
  simp [cycleEvents, DigitStore.get]

/-- The strobe byte's 24 events: DATA is 1 for the bit of its position alone (R95). -/
theorem patternEvents_onehot (p : Pos) :
    patternEvents (onehot p) =
      ([7, 6, 5, 4, 3, 2, 1, 0] : List Nat).flatMap fun i => bitEvents (decide (i = p.val)) :=
  List.flatMap_congr fun i hi => by rw [onehot_getLsbD p i (by simp at hi; omega)]

/-- UPDATE appends the events of a cycle over the store to the trace. -/
theorem exec_update_trace {s t : State} (h : exec .update s = .next t) : t.trace = s.trace ++ cycleEvents s.ds := by
  obtain ⟨-, rfl⟩ := exec_eq_next.1 h
  rw [outcome_update]

/-- Settles O18: the outcome of UPDATE, with the strobe bytes' bits written out. -/
theorem updateSendsTheFourFrames : Obligations.UpdateSendsTheFourFrames := by
  refine fun s => ⟨rfl, fun ha => ?_⟩
  rw [exec_of_accepting .update ha, outcome_update, cycleEvents_eq_flatMap]
  simp only [frameEvents, patternEvents_onehot]
  rfl

/-! ## Events by line -/

theorem countP_pattern (b : Byte) :
    (patternEvents b).countP (fun e => e.line = .data) = 8 ∧
    (patternEvents b).countP (fun e => e.line = .shclk) = 16 ∧
    (patternEvents b).countP (fun e => e.line = .latch) = 0 := ⟨rfl, rfl, rfl⟩

theorem countP_frame (b : Byte) (p : Pos) :
    (frameEvents b p).countP (fun e => e.line = .data) = 16 ∧
    (frameEvents b p).countP (fun e => e.line = .shclk) = 32 ∧
    (frameEvents b p).countP (fun e => e.line = .latch) = 2 := by
  simp only [frameEvents, List.countP_append, countP_pattern]
  exact ⟨rfl, rfl, rfl⟩

/-- The 200 events of a cycle, by line (R99). -/
theorem countP_cycle (ds : DigitStore) :
    (cycleEvents ds).countP (fun e => e.line = .data) = 64 ∧
    (cycleEvents ds).countP (fun e => e.line = .shclk) = 128 ∧
    (cycleEvents ds).countP (fun e => e.line = .latch) = 8 := by
  simp only [cycleEvents, List.countP_append, countP_frame, and_self]

/-! ## Edges and sampled bits -/

theorem risingEdges_frame (b : Byte) (p : Pos) (w : Wires) :
    risingEdges .shclk w (frameEvents b p) = 16 ∧ risingEdges .latch w (frameEvents b p) = 1 := by
  simp only [frameEvents, risingEdges_append, risingEdges_pattern, risingEdges_latch, and_self]

/-- The rising edges of a cycle, whatever the levels before (R99). -/
theorem risingEdges_cycle (ds : DigitStore) (w : Wires) :
    risingEdges .shclk w (cycleEvents ds) = 64 ∧ risingEdges .latch w (cycleEvents ds) = 4 := by
  simp only [cycleEvents, risingEdges_append, risingEdges_frame, and_self]

/-- The bits sampled in a list of events are as many as the rising edges of SHCLK (R86). -/
theorem sampledBits_length (w : Wires) (es : List PinEvent) :
    (sampledBits w es).length = risingEdges .shclk w es := by
  induction es generalizing w with
  | nil => rfl
  | cons e es ih =>
    simp only [sampledBits, risingEdges]
    split
    · rw [List.length_cons, ih, Nat.add_comm]
    · rw [ih, Nat.zero_add]

/-! ## The frame trace -/

/-- A frame is its two bytes and a latch pulse in the frame trace (R111). -/
theorem frameTraceFrom_frame (b : Byte) (p : Pos) (w : Wires) (rest : List PinEvent) :
    frameTraceFrom w 0 0 (frameEvents b p ++ rest) =
      .byte b :: .byte (onehot p) :: .lo :: .hi ::
        frameTraceFrom ((frameEvents b p).foldl Wires.after w) 0 0 rest := by
  simp only [frameEvents, List.append_assoc, List.foldl_append, frameTraceFrom_pattern, frameTraceFrom_latch]

/-- The sixteen items of a cycle (R111). -/
theorem frameTrace_cycle (ds : DigitStore) (w : Wires) :
    frameTrace w (cycleEvents ds) =
      ([0, 1, 2, 3] : List Pos).flatMap fun p => [.byte (ds.get p), .byte (onehot p), .lo, .hi] := by
  rw [cycleEvents_eq_flatMap]
  simp only [frameTrace, List.flatMap_cons, frameTraceFrom_frame]
  rfl

/-- Settles O38: the items of the cycle that UPDATE appends. -/
theorem frameTraceOfARefreshCycle : Obligations.FrameTraceOfARefreshCycle :=
  fun s _ h => ⟨cycleEvents s.ds, exec_update_trace h, frameTrace_cycle s.ds⟩

/-- Settles O37: the counts of the cycle that UPDATE appends. -/
theorem refreshCycleCounts : Obligations.RefreshCycleCounts := by
  intro s t h
  obtain ⟨hdata, hshclk, hlatch⟩ := countP_cycle s.ds
  refine ⟨cycleEvents s.ds, exec_update_trace h, cycleEvents_length s.ds, hdata, hshclk, hlatch, fun w => ?_⟩
  obtain ⟨hclocks, hpulses⟩ := risingEdges_cycle s.ds w
  refine ⟨hclocks, hpulses, by rw [sampledBits_length, hclocks], ?_⟩
  rw [frameTrace_cycle]
  rfl

/-! ## The reference receiver -/

/-- A frame leaves its two bytes in the receiver's chain, and its latch pulse shows them (R114, R115). -/
theorem run_frame_out (r : Receiver) (b : Byte) (p : Pos) : (r.run (frameEvents b p)).out = b ++ onehot p := by
  have hchain : (r.q.setWidth 8 ++ b).setWidth 8 = b := BitVec.setWidth_append_eq_right
  simp only [frameEvents, run_append, run_pattern, run_latch, hchain]

/-- Settles O39: the outputs after a frame are its two bytes, read bit by bit. -/
theorem receiverShowsTheFrameAfterItsLatchPulse : Obligations.ReceiverShowsTheFrameAfterItsLatchPulse := by
  refine ⟨fun r b p => ⟨run_frame_out r b p, fun j => ?_, fun q => ?_, fun j h4 h8 => ?_⟩, fun s t h => ?_⟩
  · have hj : ¬ 8 + j.val < 8 := by omega
    rw [Receiver.lit, run_frame_out, append_getLsbD, if_neg hj, Nat.add_sub_cancel_left]
  · have hq : q.val < 8 := by omega
    rw [Receiver.selected, run_frame_out, append_getLsbD, if_pos hq, onehot_getLsbD p q hq, decide_eq_decide,
      Fin.ext_iff]
  · have hp : j ≠ p.val := by omega
    rw [run_frame_out, append_getLsbD, if_pos h8, onehot_getLsbD p j h8, decide_eq_false hp]
  · rw [exec_update_trace h, cycleEvents_eq_flatMap]

end Sys2Proof.Machine
end

section
/-! SHOW_ZEROS_LEFT and HIDE_ZEROS_LEFT: what a cascade leaves at each position, when the two undo each other, a written
word under them, and the states of the positions (spec/44_zero_suppression.md R119 to R130). -/

namespace Sys2Proof.Machine

/-! ## A cascade, position by position -/

/-- The positions a cascade can reach are those above the units (R123). -/
theorem one_le_pos_iff {q : Pos} : 1 ≤ q ↔ q ≠ 0 := Fin.pos_iff_ne_zero

/-- A cascade leaves the units digit (R123). -/
theorem cascade_get_zero (ds : DigitStore) (old new : Byte) : (ds.cascade old new).get 0 = ds.get 0 := by
  rw [cascade_get, if_neg fun h => h.1 rfl]

/-- A cascade replaces `old` at a position of 1..3 up to which, from the top, every position holds it. -/
theorem cascade_get_of_run {ds : DigitStore} {old : Byte} (new : Byte) {q : Pos} (hq : 1 ≤ q)
    (h : ∀ p, q ≤ p → ds.get p = old) : (ds.cascade old new).get q = new := by
  rw [cascade_get, if_pos ⟨one_le_pos_iff.1 hq, h⟩]

/-- A cascade stops at a position that does not hold `old`: neither it nor any position below it changes. -/
theorem cascade_get_of_stop {ds : DigitStore} {old : Byte} (new : Byte) {q p : Pos} (hp : q ≤ p)
    (h : ds.get p ≠ old) : (ds.cascade old new).get q = ds.get q := by
  rw [cascade_get, if_neg fun hrun => h (hrun.2 p hp)]

/-- In a store that does not hold `new`, a cascade leaves it exactly at the leading run of `old`. -/
theorem cascade_get_eq_new_iff {ds : DigitStore} {old new : Byte} {q : Pos} (h : ds.get q ≠ new) :
    (ds.cascade old new).get q = new ↔ 1 ≤ q ∧ ∀ p, q ≤ p → ds.get p = old := by
  rw [cascade_get, one_le_pos_iff]
  exact ite_eq_left_iff.trans ⟨fun hrun => not_not.1 fun hno => h (hrun hno), fun hrun hno => absurd hrun hno⟩

/-- A position at which a cascade leaves anything but `new` is as it was. -/
theorem cascade_get_of_ne_new {ds : DigitStore} {old new : Byte} {q : Pos} (h : (ds.cascade old new).get q ≠ new) :
    (ds.cascade old new).get q = ds.get q := by
  rw [cascade_get] at h ⊢
  exact if_neg fun hrun => h (if_pos hrun)

/-- The closed form of a cascade (R120, R122). -/
theorem cascade_closedForm (ds : DigitStore) (old new : Byte) {q : Pos} (hq : 1 ≤ q) :
    ((∀ p, q ≤ p → ds.get p = old) → (ds.cascade old new).get q = new) ∧
    ((∃ p, q ≤ p ∧ ds.get p ≠ old) → (ds.cascade old new).get q = ds.get q) :=
  ⟨cascade_get_of_run new hq, fun ⟨_, hp, hne⟩ => cascade_get_of_stop new hp hne⟩

theorem blank_ne_zero : Config.blank ≠ Config.zero := by decide

/-- Settles O16: SHOW_ZEROS_LEFT is the cascade from 0xFF to 0xC0. -/
theorem showZerosReplacesTheLeadingBlanks : Obligations.ShowZerosReplacesTheLeadingBlanks := by
  refine fun s => ⟨rfl, fun ha => ⟨s.ds.cascade Config.blank Config.zero, exec_of_accepting _ ha,
    cascade_get_zero .., fun q hq => cascade_closedForm s.ds _ _ hq, _, exec_of_accepting _ (by exact ha), ?_⟩⟩
  rw [outcome_showZerosLeft, cascade_idempotent s.ds blank_ne_zero]

/-- Settles O17: HIDE_ZEROS_LEFT is the cascade from 0xC0 to 0xFF. -/
theorem hideZerosBlanksTheLeadingZeros : Obligations.HideZerosBlanksTheLeadingZeros := by
  refine fun s => ⟨rfl, fun ha => ⟨s.ds.cascade Config.zero Config.blank, exec_of_accepting _ ha,
    cascade_get_zero .., fun q hq => cascade_closedForm s.ds _ _ hq, _, exec_of_accepting _ (by exact ha), ?_⟩⟩
  rw [outcome_hideZerosLeft, cascade_idempotent s.ds blank_ne_zero.symm]

/-! ## A cascade and its reverse -/

/-- Above a position that does not hold `old` there is a topmost one. -/
theorem exists_topmost_ne {ds : DigitStore} {old : Byte} {p : Pos} (h : ds.get p ≠ old) :
    ∃ q, p ≤ q ∧ ds.get q ≠ old ∧ ∀ r, q < r → ds.get r = old := by
  obtain ⟨q, hpq, hq⟩ := Finite.exists_le_maximal (p := fun r => ds.get r ≠ old) h
  exact ⟨q, hpq, hq.prop, fun r hr => not_not.1 (hq.not_prop_of_gt hr)⟩

/-- The reverse cascade goes too far where the first position from the top that is not `old` holds `new`. -/
theorem cascade_reverse_get_of_new {ds : DigitStore} {old new : Byte} {q : Pos} (hq : 1 ≤ q)
    (habove : ∀ p, q < p → ds.get p = old) (hne : ds.get q ≠ old) (hnew : ds.get q = new) :
    ((ds.cascade old new).cascade new old).get q = old := by
  refine cascade_get_of_run old hq fun p hp => ?_
  obtain rfl | hlt := hp.eq_or_lt
  · rw [cascade_get_of_stop new le_rfl hne, hnew]
  · exact cascade_get_of_run new (hq.trans hp) fun r hr => habove r (hlt.trans_le hr)

/-- The reverse cascade leaves every position as it was before the two, if the first from the top that is not `old` does
not hold `new`: it undoes the leading run, and stops where that ends. -/
theorem cascade_reverse_get {ds : DigitStore} {old new : Byte}
    (h : ∀ q : Pos, 1 ≤ q → (∀ p, q < p → ds.get p = old) → ds.get q ≠ old → ds.get q ≠ new) (p : Pos) :
    ((ds.cascade old new).cascade new old).get p = ds.get p := by
  by_cases hp : 1 ≤ p
  · by_cases hrun : ∀ q, p ≤ q → ds.get q = old
    · rw [hrun p le_rfl]
      exact cascade_get_of_run old hp fun q hq => cascade_get_of_run new (hp.trans hq) fun r hr => hrun r (hq.trans hr)
    · push Not at hrun
      obtain ⟨r, hpr, hr⟩ := hrun
      obtain ⟨q, hrq, hne, habove⟩ := exists_topmost_ne hr
      have hpq : p ≤ q := hpr.trans hrq
      have hstop : (ds.cascade old new).get q ≠ new := by
        rw [cascade_get_of_stop new le_rfl hne]
        exact h q (hp.trans hpq) habove hne
      rw [cascade_get_of_stop old hpq hstop, cascade_get_of_stop new hpq hne]
  · obtain rfl : p = 0 := not_not.1 fun h0 => hp (one_le_pos_iff.2 h0)
    rw [cascade_get_zero, cascade_get_zero]

/-- The reverse cascade undoes a cascade exactly when the first of the positions 3, 2, 1 that is not `old`, if there is
one, does not hold `new` (R128, R129). -/
theorem cascade_reverse_eq_iff (ds : DigitStore) (old new : Byte) :
    (ds.cascade old new).cascade new old = ds ↔
      ∀ q : Pos, 1 ≤ q → (∀ p, q < p → ds.get p = old) → ds.get q ≠ old → ds.get q ≠ new := by
  refine ⟨fun heq q hq habove hne hnew => hne ?_, fun h => digitStore_ext (cascade_reverse_get h)⟩
  rw [← cascade_reverse_get_of_new hq habove hne hnew, heq]

/-- Settles O43: the two commands are a cascade and its reverse. -/
theorem hideUndoesShowExactlyWhen : Obligations.HideUndoesShowExactlyWhen := fun s ha =>
  ⟨_, _, exec_of_accepting _ ha, exec_of_accepting _ (by exact ha), cascade_reverse_eq_iff s.ds ..⟩

/-! ## A written word -/

/-- WRITE_WORD leaves the four patterns of its word (R77). -/
theorem exec_writeWord {s : State} (ha : s.accepting) {n : BitVec 16} (hn : n.toNat < 10000) :
    exec (.writeWord n) s = .next { s with ds := wordStore ⟨n.toNat, hn⟩, results := s.results ++ [.ok] } := by
  rw [exec_of_accepting _ ha, outcome_wordStore s (checkOperands_writeWord hn)]

/-- No position of a written word is blank (R79). -/
theorem wordStore_ne_blank (m : Fin 10000) (p : Pos) : (wordStore m).get p ≠ Config.blank :=
  wordStore_get m p ▸ enc_ne_blank _

/-- Showing brings a written word back after hiding: it holds no blank that would be shown too (R129). -/
theorem wordStore_hide_show (m : Fin 10000) :
    ((wordStore m).cascade Config.zero Config.blank).cascade Config.blank Config.zero = wordStore m :=
  (cascade_reverse_eq_iff ..).2 fun q _ _ _ => wordStore_ne_blank m q

/-- Settles O44: the two commands are a cascade and its reverse, and a written word holds no blank. -/
theorem showUndoesHideExactlyWhen : Obligations.ShowUndoesHideExactlyWhen := by
  refine ⟨fun s ha => ⟨_, _, exec_of_accepting _ ha, exec_of_accepting _ (by exact ha),
    cascade_reverse_eq_iff s.ds ..⟩, fun s n ha hn => ?_⟩
  have hn' : n.toNat < 10000 := Nat.lt_succ_of_le hn
  exact ⟨_, _, _, exec_writeWord ha hn', exec_of_accepting _ (by exact ha), exec_of_accepting _ (by exact ha),
    wordStore_hide_show ⟨n.toNat, hn'⟩⟩

/-- The digit of a word at position `p` is its decimal digit of weight `10^p` (R76). -/
theorem digitAt_val (m : Fin 10000) (p : Pos) : (digitAt m p).val = m.val / 10 ^ p.val % 10 := by
  fin_cases p <;> simp only [digitAt] <;> omega

/-- Only the digit 0 has the pattern 0xC0 (R72). -/
theorem enc_eq_zero_iff (d : Digit) : enc d = Config.zero ↔ d = 0 := by revert d; decide

/-- From a position up every digit of a word is 0 exactly when the word is below the position's weight: from the top
down, each digit that is 0 takes a factor of ten off the bound. -/
theorem digits_zero_from_iff (m : Fin 10000) (q : Pos) : (∀ p, q ≤ p → digitAt m p = 0) ↔ m.val < 10 ^ q.val := by
  simp only [Fin.ext_iff, digitAt_val]
  constructor
  · intro h
    induction q using Fin.reverseInduction with
    | last =>
      have htop : m.val / 1000 % 10 = 0 := h 3 le_rfl
      show m.val < 1000
      omega
    | cast i ih =>
      have hbelow : m.val < 10 ^ i.val * 10 := ih fun p hp => h p (i.castSucc_le_succ.trans hp)
      have hdigit : m.val / 10 ^ i.val % 10 = 0 := h i.castSucc le_rfl
      rw [Nat.mod_eq_of_lt (Nat.div_lt_of_lt_mul hbelow)] at hdigit
      exact Nat.lt_of_div_eq_zero (by positivity) hdigit
  · intro h p hp
    have hlt : m.val < 10 ^ p.val := h.trans_le (Nat.pow_le_pow_right (by decide) hp)
    rw [Nat.div_eq_of_lt hlt]; rfl

/-- The leading zeros of a written word, which hiding blanks (R130). -/
theorem wordStore_zeros_from_iff (m : Fin 10000) (q : Pos) :
    (∀ p, q ≤ p → (wordStore m).get p = Config.zero) ↔ m.val < 10 ^ q.val := by
  simp only [wordStore_get, enc_eq_zero_iff, digits_zero_from_iff]

/-- Settles O45: hiding blanks the leading run of zeros of the written word, and showing brings the word back. -/
theorem writtenWordsLeadingZerosHideAndShow : Obligations.WrittenWordsLeadingZerosHideAndShow := by
  intro s n ha hn
  have hn' : n.toNat < 10000 := Nat.lt_succ_of_le hn
  have hback := wordStore_hide_show ⟨n.toNat, hn'⟩
  refine ⟨_, _, _, _, exec_writeWord ha hn', exec_of_accepting _ (by exact ha), exec_of_accepting _ (by exact ha),
    exec_of_accepting _ (by exact ha), fun q => ⟨?_, cascade_get_of_ne_new⟩, hback,
    congrArg (DigitStore.cascade · Config.zero Config.blank) hback⟩
  rw [← wordStore_zeros_from_iff ⟨n.toNat, hn'⟩ q]
  exact cascade_get_eq_new_iff (wordStore_ne_blank _ q)

/-! ## The states of the positions -/

theorem posState_eq_blank_iff (b : Byte) : posState b = some .blank ↔ b = Config.blank := by
  unfold posState
  split_ifs <;> simp_all

theorem posState_eq_zeroShown_iff (b : Byte) : posState b = some .zeroShown ↔ b = Config.zero := by
  unfold posState
  split_ifs with hb <;> simp_all [blank_ne_zero]

@[simp] theorem posState_blank : posState Config.blank = some .blank := rfl

@[simp] theorem posState_zero : posState Config.zero = some .zeroShown := rfl

/-- A stored digit is ZERO_SHOWN or NONZERO_SHOWN by its value (R124). -/
theorem posState_enc (d : Digit) : posState (enc d) = if d.val = 0 then some .zeroShown else some .nonzeroShown := by
  revert d; decide

/-- Every legal pattern has a state (R124). -/
theorem posState_isSome {b : Byte} (h : LegalPattern b) : (posState b).isSome = true := by
  obtain rfl | ⟨d, rfl⟩ := h
  · rfl
  · rw [posState_enc]; split <;> rfl

/-- SHOW_ZEROS_LEFT makes ZERO_SHOWN of the leading run of BLANK positions (R125). -/
theorem posState_show (ds : DigitStore) (q : Pos) :
    posState ((ds.cascade Config.blank Config.zero).get q) =
      if 1 ≤ q ∧ ∀ p, q ≤ p → posState (ds.get p) = some .blank then some .zeroShown else posState (ds.get q) := by
  simp only [cascade_get, posState_eq_blank_iff, one_le_pos_iff, apply_ite posState, posState_zero]

/-- HIDE_ZEROS_LEFT makes BLANK of the leading run of ZERO_SHOWN positions (R125). -/
theorem posState_hide (ds : DigitStore) (q : Pos) :
    posState ((ds.cascade Config.zero Config.blank).get q) =
      if 1 ≤ q ∧ ∀ p, q ≤ p → posState (ds.get p) = some .zeroShown then some .blank else posState (ds.get q) := by
  simp only [cascade_get, posState_eq_zeroShown_iff, one_le_pos_iff, apply_ite posState, posState_blank]

/-- WRITE_NIBBLE gives its position the state of its digit, and leaves the others (R125). -/
theorem posState_writeNibble {val pos : BitVec 8} (s : State)
    (hf : (Instr.writeNibble val pos).faultFree = true) (q : Pos) :
    posState ((outcomeOf (.writeNibble val pos) s).ds.get q) =
      if q.val ≠ pos.toNat then posState (s.ds.get q)
      else if val.toNat = 0 then some .zeroShown else some .nonzeroShown := by
  simp only [Instr.faultFree, Bool.and_eq_true, decide_eq_true_eq] at hf
  obtain ⟨hv, hp⟩ := hf
  rw [outcome_writeNibble s (Nat.lt_succ_of_le hv) (Nat.lt_succ_of_le hp), get_set, ite_not, apply_ite posState,
    posState_enc]
  simp only [Fin.ext_iff]

/-- WRITE_WORD gives each position the state of its decimal digit (R125). -/
theorem posState_writeWord {n : BitVec 16} (s : State) (hf : (Instr.writeWord n).faultFree = true) (q : Pos) :
    posState ((outcomeOf (.writeWord n) s).ds.get q) =
      if n.toNat / 10 ^ q.val % 10 = 0 then some .zeroShown else some .nonzeroShown := by
  have hn : n.toNat < 10000 := Nat.lt_succ_of_le (of_decide_eq_true hf)
  rw [outcome_wordStore s (checkOperands_writeWord hn), wordStore_get, posState_enc, digitAt_val]

/-- Every position of a store cleared to blanks is BLANK (R125). -/
theorem posState_clear (s : State) (q : Pos) : posState ((outcomeOf .clear s).ds.get q) = some .blank := by
  rw [outcome_clear]
  fin_cases q <;> rfl

/-- Settles O47, command by command. -/
theorem positionStateTransitions : Obligations.PositionStateTransitions := by
  intro i s t hlegal h hf q
  obtain ⟨-, rfl⟩ := exec_eq_next.1 h
  refine ⟨?_, ?_, ?_, ?_, ?_, ?_, posState_isSome (legal_outcomeOf hlegal i q), fun a b c => ?_⟩
  · rintro rfl
    exact posState_show s.ds q
  · rintro rfl
    exact posState_hide s.ds q
  · rintro val pos rfl
    exact posState_writeNibble s hf q
  · rintro n rfl
    exact posState_writeWord s hf q
  · rintro rfl
    exact posState_clear s q
  · rintro rfl
    rw [outcome_update]
  · rw [construct_get, posState_blank]

end Sys2Proof.Machine
end

section
/-! Faults: which words are illegal (spec/30_encoding.md R63), that a fault of a word, however the word is sent, leaves
its result code alone (spec/60_exceptions.md R136, R137), and that the block goes on after it (R138). -/

namespace Sys2Proof

/-- A word of an operand-less command is refused just when its `ARG` is not 0 (R63 (b)). -/
theorem operandless_error_iff (i : Instr) (w : CommandWord) :
    (∃ e, operandless i w = .error e) ↔ w.toNat % 65536 ≠ 0 := by
  have harg : argField w = 0#16 ↔ w.toNat % 65536 = 0 := by
    rw [BitVec.toNat_eq, argField_toNat]
    rfl
  unfold operandless
  split
  · next h => simp [harg.1 h]
  · next h => simp [mt harg.2 h]

/-- The illegal words, by their `OP` and `ARG` as numbers (R63). -/
theorem decode_error_iff (w : CommandWord) :
    (∃ e, decode w = .error e) ↔
      (w.toNat / 65536 = 0 ∨ 7 ≤ w.toNat / 65536) ∨
      (3 ≤ w.toNat / 65536 ∧ w.toNat / 65536 ≤ 6 ∧ w.toNat % 65536 ≠ 0) := by
  rw [← opField_toNat]
  unfold decode
  split
  iterate 2
    · next hop => simp [hop]
  iterate 4
    · next hop => simp [hop, operandless_error_iff]
  · next h1 h2 h3 h4 h5 h6 =>
    refine iff_of_true ⟨_, rfl⟩ (.inl ?_)
    rw [imp_false] at h1 h2 h3 h4 h5 h6
    omega

end Sys2Proof

namespace Sys2Proof.Machine

/-! ## A faulting word raises its fault, however it is sent -/

/-- An illegal word raises IllegalCommand, with no other effect (R136, R137). -/
theorem step_of_illegal {s : State} {w : CommandWord} {rest : List Input} {e : DecodeError} (ha : s.accepting)
    (hd : decode w = .error e) (hi : s.inputs = .command w :: rest ∨ s.inputs = .commandStepwise w :: rest) :
    step s = .next { s with inputs := rest, results := s.results ++ [.raised .illegalCommand] } := by
  obtain hi | hi := hi
  · rw [step_of_command ha hi, hd]
    rfl
  · rw [step_of_stepwise ha hi, beginWord, hd]
    rfl

/-- A word whose operands fail their check raises that fault, with no other effect (R137). -/
theorem step_of_illegal_operand {s : State} {w : CommandWord} {rest : List Input} {i : Instr} {f : CommandFault}
    (ha : s.accepting) (hd : decode w = .ok i) (hc : checkOperands i = .error f)
    (hi : s.inputs = .command w :: rest ∨ s.inputs = .commandStepwise w :: rest) :
    step s = .next { s with inputs := rest, results := s.results ++ [.raised f] } := by
  obtain hi | hi := hi
  · rw [step_of_command ha hi, hd]
    exact exec_fault (s := { s with inputs := rest }) ha hc
  · rw [step_of_stepwise ha hi, beginWord, hd]
    simp only [beginCommand, hc]
    rfl

/-- The operand check of a command that is not fault-free names the fault (R64). -/
theorem checkOperands_error_of_not_faultFree {i : Instr} (h : i.faultFree = false) :
    ∃ f, checkOperands i = .error f := by
  cases hc : checkOperands i with
  | error f => exact ⟨f, rfl⟩
  | ok c => simp [(checkOperands_ok_iff i).1 ⟨c, hc⟩] at h

/-- A faulting word ends with some fault and no other effect, and the fault of an illegal word is IllegalCommand. -/
theorem step_of_faultingWord {s : State} {w : CommandWord} {rest : List Input} (ha : s.accepting) (hw : FaultingWord w)
    (hi : s.inputs = .command w :: rest ∨ s.inputs = .commandStepwise w :: rest) :
    ∃ f, step s = .next { s with inputs := rest, results := s.results ++ [.raised f] } ∧
      ∀ e, decode w = .error e → f = .illegalCommand := by
  obtain ⟨e, hd⟩ | ⟨i, hd, hf⟩ := hw
  · exact ⟨_, step_of_illegal ha hd hi, fun _ _ => rfl⟩
  · obtain ⟨f, hc⟩ := checkOperands_error_of_not_faultFree hf
    exact ⟨f, step_of_illegal_operand ha hd hc hi, fun e he => nomatch hd.symm.trans he⟩

/-! ## After a fault -/

/-- A command appends one result code, and neither that code nor anything else it does looks at the codes returned
before it (R134, R138). -/
theorem outcomeOf_results (i : Instr) (s : State) :
    ∃ c, ∀ rs, outcomeOf i { s with results := rs } = { outcomeOf i s with results := rs ++ [c] } := by
  simp only [outcomeOf, refreshCycle_eq]
  cases checkOperands i with
  | error f => exact ⟨.raised f, fun _ => rfl⟩
  | ok c =>
    refine ⟨.ok, fun _ => ?_⟩
    cases c <;> rfl

/-- A state with one more fault among its result codes goes on as it would have without it (R138). -/
theorem goesOnAfter_raised (s : State) (f : CommandFault) :
    s.GoesOnAfter f { s with results := s.results ++ [.raised f] } where
  onlyTheCode := rfl
  nextCommand j u hu := by
    obtain ⟨ha, rfl⟩ := exec_eq_next.1 hu
    obtain ⟨c, hc⟩ := outcomeOf_results j s
    have ht := hc (s.results ++ [.raised f])
    rw [List.append_assoc] at ht
    exact ⟨c, congrArg State.results (hc s.results), exec_eq_next.2 ⟨ha, ht.symm⟩⟩
  nextTick hq rest := step_of_tick (s := { s with results := s.results ++ [.raised f], inputs := .tick :: rest }) hq rfl

/-! ## The statements -/

/-- Settles O7, from the illegal words as numbers and the step on one of them. -/
theorem illegalWordsRaiseIllegalCommand : Obligations.IllegalWordsRaiseIllegalCommand :=
  fun w => ⟨decode_error_iff w, fun _ _ _ ha hd hi => ⟨step_of_illegal ha hd hi, rfl⟩⟩

/-- Settles O22: a fault leaves its result code alone, whichever way it was raised, and the code does not matter to what
follows. -/
theorem faultIsNotSticky : Obligations.FaultIsNotSticky := by
  constructor
  · intro i s t hf ht
    obtain ⟨f, hc⟩ := checkOperands_error_of_not_faultFree hf
    obtain ⟨-, rfl⟩ := exec_eq_next.1 ht
    rw [outcome_fault s hc]
    exact ⟨f, goesOnAfter_raised s f⟩
  · intro s w rest ha hw hi
    obtain ⟨f, hstep, hillegal⟩ := step_of_faultingWord ha hw hi
    exact ⟨f, _, hstep, goesOnAfter_raised { s with inputs := rest } f, hillegal⟩

end Sys2Proof.Machine
end

section
/-! Commands: their words (spec/30_encoding.md R59, R63, R66), when they have a step (spec/60_exceptions.md R158), the
one result code each returns (R134, R139), and what each leaves unchanged (spec/10_state.md R17). -/

namespace Sys2Proof

/-! ## Command words -/

/-- Settles O4: both ways of the decoder. -/
theorem decodeAndEncodeAreInverse : Obligations.DecodeAndEncodeAreInverse :=
  ⟨decode_encode, fun _ _ => encode_of_decode⟩

/-- Settles O3, word by word. -/
theorem writtenOutWordsDecode : Obligations.WrittenOutWordsDecode :=
  ⟨rfl, rfl, rfl, rfl, rfl, rfl, rfl, rfl, rfl, rfl⟩

/-- Settles O5: `OP` above `ARG`, as a number. -/
theorem commandWordsAreTheSyntaxTables : Obligations.CommandWordsAreTheSyntaxTables := by
  refine ⟨fun val pos => ?_, fun n => ?_, rfl, rfl, rfl, rfl⟩
  · simp only [encode, append_toNat, BitVec.toNat_ofNat]
    omega
  · simp only [encode, append_toNat, BitVec.toNat_ofNat]
    omega

end Sys2Proof

namespace Sys2Proof.Machine

/-- Settles O10: every meaning asks whether the block accepts. -/
theorem noCommandRunsUnlessBothAgentsAreIdle : Obligations.NoCommandRunsUnlessBothAgentsAreIdle := by
  intro i s ha
  rw [exec_eq, ifAccepting_refused ha]

/-! ## Result codes -/

/-- A command that passes its operand check returns OK (R134). -/
theorem outcomeOf_results_of_ok {i : Instr} {c : Command} (s : State) (h : checkOperands i = .ok c) :
    (outcomeOf i s).results = s.results ++ [.ok] := by
  simp only [outcomeOf, h]
  cases c with
  | update => rw [returnOk_results, refreshCycle_eq]
  | _ => rfl

/-- The operand check fails only on commands that are not fault-free (R64). -/
theorem not_faultFree_of_error {i : Instr} {f : CommandFault} (h : checkOperands i = .error f) :
    i.faultFree = false := by
  refine Bool.eq_false_iff.2 fun hf => ?_
  obtain ⟨c, hc⟩ := (checkOperands_ok_iff i).2 hf
  exact nomatch h.symm.trans hc

/-- No result code is above 4 (R134). -/
theorem resultCode_le_four (c : ResultCode) : c.code.toNat ≤ 4 := by
  cases c with
  | ok => decide
  | raised f => cases f <;> decide

/-- Settles O21, by whether the operand check passes. -/
theorem everyCommandReturnsOneResultCode : Obligations.EveryCommandReturnsOneResultCode := by
  intro i s t h
  obtain ⟨-, rfl⟩ := exec_eq_next.1 h
  cases hc : checkOperands i with
  | ok c =>
    exact ⟨.ok, outcomeOf_results_of_ok s hc, iff_of_true rfl ((checkOperands_ok_iff i).1 ⟨c, hc⟩),
      resultCode_le_four _, fun _ => rfl⟩
  | error f =>
    have hf := not_faultFree_of_error hc
    refine ⟨.raised f, by rw [outcome_fault s hc], iff_of_false nofun (Bool.eq_false_iff.1 hf),
      resultCode_le_four _, ?_⟩
    rintro (rfl | rfl | rfl | rfl) <;> exact nomatch hf

/-! ## What a command leaves unchanged -/

/-- A command other than UPDATE changes the digit store and the result codes alone. -/
theorem outcomeOf_store {i : Instr} (s : State) (h : i ≠ .update) :
    outcomeOf i s = { s with ds := (outcomeOf i s).ds, results := (outcomeOf i s).results } := by
  have hu := checkOperands_ne_update h
  unfold outcomeOf
  cases hc : checkOperands i with
  | error f => rfl
  | ok c =>
    cases c with
    | update => exact absurd hc hu
    | _ => rfl

/-- A command that is not fault-free leaves the store (R137). -/
theorem outcomeOf_ds_of_not_faultFree {i : Instr} (s : State) (h : i.faultFree = false) :
    (outcomeOf i s).ds = s.ds := by
  obtain ⟨f, hc⟩ := checkOperands_error_of_not_faultFree h
  rw [outcome_fault s hc]

/-- WRITE_NIBBLE leaves every position but its own (R17, R73). -/
theorem outcomeOf_writeNibble_get {val pos : BitVec 8} (s : State) {p : Pos} (hp : p.val ≠ pos.toNat) :
    (outcomeOf (.writeNibble val pos) s).ds.get p = s.ds.get p := by
  cases hf : (Instr.writeNibble val pos).faultFree with
  | false => rw [outcomeOf_ds_of_not_faultFree s hf]
  | true =>
    simp only [Instr.faultFree, Bool.and_eq_true, decide_eq_true_eq] at hf
    obtain ⟨hv, hpos⟩ := hf
    rw [outcome_writeNibble s (Nat.lt_succ_of_le hv) (Nat.lt_succ_of_le hpos), get_set,
      if_neg (mt (congrArg Fin.val) hp)]

/-- Settles O19: the frame of every store command, and of its store what each leaves. -/
theorem storeCommandsTouchOnlyTheStore : Obligations.StoreCommandsTouchOnlyTheStore := by
  intro i s t h hu
  obtain ⟨-, rfl⟩ := exec_eq_next.1 h
  refine ⟨outcomeOf_store s hu, ?_, ?_, outcomeOf_ds_of_not_faultFree s⟩
  · rintro val pos rfl p hp
    exact outcomeOf_writeNibble_get s hp
  · rintro (rfl | rfl)
    · exact cascade_get_zero ..
    · exact cascade_get_zero ..

/-- Settles O20: the outcome of UPDATE names what it changes, and appends to the trace. -/
theorem updateTouchesOnlyTheLines : Obligations.UpdateTouchesOnlyTheLines := by
  intro s t h
  obtain ⟨-, rfl⟩ := exec_eq_next.1 h
  rw [outcome_update]
  exact ⟨fun _ => rfl, rfl, rfl, rfl, rfl, rfl, _, rfl⟩

end Sys2Proof.Machine
end

section
/-! The step: what it does by the move that arrives, when it has a next state, and what no step changes
(spec/20_memory.md R50; spec/60_exceptions.md R146, R158; spec/70_reset_and_hazards.md R174). -/

namespace Sys2Proof.Machine

/-! ## By the move that arrives -/

/-- Settles O8: the word is decoded and its meaning answers. -/
theorem stepRunsTheDecodedCommand : Obligations.StepRunsTheDecodedCommand := by
  intro s w rest i ha hi hd
  rw [step_of_command ha hi, hd]

/-- A stepwise word that decodes begins its command. -/
theorem step_of_stepwise_ok {s : State} {w : CommandWord} {rest : List Input} {i : Instr} (ha : s.accepting)
    (hi : s.inputs = .commandStepwise w :: rest) (hd : decode w = .ok i) :
    step s = .next (beginCommand { s with inputs := rest } i) := by
  rw [step_of_stepwise ha hi, beginWord, hd]

/-- A fault-free command other than UPDATE begins by being recorded in `HST` (R31). -/
theorem beginCommand_of_ok {i : Instr} {c : Command} (s : State) (hc : checkOperands i = .ok c) (hu : c ≠ .update) :
    beginCommand s i = { s with hst := .run c 0 } := by
  simp only [beginCommand, hc]

/-- Settles O9, by the operand check. -/
theorem stepBeginsAStepwiseCommand : Obligations.StepBeginsAStepwiseCommand := by
  intro s w rest i ha hi hd
  refine ⟨fun f hf => step_of_illegal_operand ha hd hf (.inr hi), fun c hc hu => ?_, ?_⟩
  · rw [step_of_stepwise_ok ha hi hd, beginCommand_of_ok _ hc hu]
  · rintro rfl
    rw [step_of_stepwise_ok ha hi hd]
    rfl

/-- Settles O12: nothing is in progress, and nothing arrives. -/
theorem anIdleBlockStays : Obligations.AnIdleBlockStays := fun _ => step_of_rest

/-! ## When there is a next state -/

/-- While `SEQ` is IDLE every step has a next state, whatever arrives. -/
theorem step_of_idle {s : State} (hq : s.seq = .idle) : ∃ t, step s = .next t := by
  by_cases hh : s.hst = .idle
  · have ha : s.accepting := ⟨hq, hh⟩
    cases hi : s.inputs with
    | nil => exact ⟨_, step_of_rest ha hi⟩
    | cons a rest =>
      cases a with
      | command w =>
        rw [step_of_command ha hi]
        cases decode w with
        | ok i => exact ⟨_, exec_of_accepting i ha⟩
        | error e => exact ⟨_, rfl⟩
      | commandStepwise w => exact ⟨_, step_of_stepwise ha hi⟩
      | tick => exact ⟨_, step_of_tick hq hi⟩
      | pass => exact ⟨hostStep s.takePass, by simp only [step, activity, hq, hi]⟩
  · by_cases ht : s.inputs.head? = some .tick
    · obtain ⟨rest, hi⟩ := List.head?_eq_some_iff.1 ht
      exact ⟨_, step_of_tick hq hi⟩
    · exact ⟨_, step_of_host hq hh ht⟩

/-- Settles O11, by whether `SEQ` is BUSY. -/
theorem onlyAnOverrunStopsTheMachine : Obligations.OnlyAnOverrunStopsTheMachine := by
  refine fun s => ⟨fun hno => ?_, step_of_overrun⟩
  by_cases hq : s.seq = .idle
  · exact step_of_idle hq
  · exact ⟨_, step_of_busy hq (hno hq)⟩

/-! ## What no step changes -/

/-- At most a leading `pass` is used up. -/
theorem takePass_inputs_cases (s : State) :
    s.takePass.inputs = s.inputs ∨ s.inputs = .pass :: s.takePass.inputs := by
  unfold State.takePass
  split
  · next h => exact .inr h
  · exact .inl rfl

/-- A step from a BUSY state is the sequencer's, and no TICK arrives. -/
theorem eq_seqStep_of_busy {s t : State} (hq : s.seq ≠ .idle) (h : step s = .next t) : t = seqStep s.takePass := by
  by_cases ht : s.inputs.head? = some .tick
  · exact nomatch (step_of_overrun hq ht).symm.trans h
  · exact (Host.Outcome.next.inj ((step_of_busy hq ht).symm.trans h)).symm

/-- Settles O30: the step is the sequencer's. -/
theorem hostHasNoStepWhileBusy : Obligations.HostHasNoStepWhileBusy := by
  intro s t hq h
  obtain rfl := eq_seqStep_of_busy hq h
  obtain ⟨hds, hcfg, hparams, hinputs, hhost⟩ := seqStep_frame s.takePass
  simp only [takePass_ds, takePass_cfg, takePass_params, takePass_hst, takePass_results] at hds hcfg hparams hhost
  refine ⟨hds, hcfg, hparams, hhost, ?_⟩
  rw [hinputs]
  exact takePass_inputs_cases s

/-- A whole command leaves the pin binding and the write orders. -/
theorem outcomeOf_config (i : Instr) (s : State) :
    (outcomeOf i s).cfg = s.cfg ∧ (outcomeOf i s).params = s.params := by
  by_cases hu : i = .update
  · rw [hu, outcome_update]
    exact ⟨rfl, rfl⟩
  · obtain ⟨hm, -⟩ := outcomeOf_moves s hu
    exact ⟨hm.cfg, hm.params⟩

/-- Settles O49, by the agent that moves. -/
theorem pinBindingNeverChanges : Obligations.PinBindingNeverChanges := by
  intro s t h
  obtain ⟨-, -, rfl⟩ | ⟨-, rest, -, rfl⟩ | ⟨-, rfl⟩ | ⟨-, w, rest, -, rfl⟩ | ⟨-, w, rest, i, -, -, rfl⟩ |
    ⟨-, w, rest, e, -, -, rfl⟩ := step_cases h
  · obtain ⟨-, hcfg, hparams, -⟩ := seqStep_frame s.takePass
    rw [hcfg, hparams, takePass_cfg, takePass_params]
    exact ⟨rfl, rfl⟩
  · exact ⟨rfl, rfl⟩
  · have hm := hostStep_moves s.takePass
    rw [hm.cfg, hm.params, takePass_cfg, takePass_params]
    exact ⟨rfl, rfl⟩
  · obtain ⟨-, -, -, hcfg, hparams⟩ := beginWord_frame { s with inputs := rest } w
    exact ⟨hcfg, hparams⟩
  · exact outcomeOf_config i { s with inputs := rest }
  · exact ⟨rfl, rfl⟩

/-! ## The lines -/

@[simp] theorem takePass_level (s : State) (l : Line) : s.takePass.level l = s.level l := by rw [takePass_eq]; rfl

/-- Settles O41: of the steps from `SEQ` IDLE only a whole UPDATE moves a line. -/
theorem onlyARefreshMovesTheLines : Obligations.OnlyARefreshMovesTheLines := by
  intro s t hq h
  obtain ⟨hbusy, -, -⟩ | ⟨-, rest, -, rfl⟩ | ⟨-, rfl⟩ | ⟨-, w, rest, -, rfl⟩ | ⟨ha, w, rest, i, hi, hd, rfl⟩ |
    ⟨-, w, rest, e, -, -, rfl⟩ := step_cases h
  · exact absurd hq hbusy
  · exact .inl ⟨rfl, fun l => by cases l <;> rfl⟩
  · have hm := hostStep_moves s.takePass
    exact .inl ⟨by rw [hm.trace, takePass_trace], fun l => by rw [hm.level, takePass_level]⟩
  · obtain ⟨-, htrace, hlevel, -⟩ := beginWord_frame { s with inputs := rest } w
    exact .inl ⟨htrace, hlevel⟩
  · by_cases hu : i = .update
    · exact .inr ⟨ha, w, rest, hi, hu ▸ hd⟩
    · obtain ⟨hm, -⟩ := outcomeOf_moves { s with inputs := rest } hu
      exact .inl ⟨hm.trace, hm.level⟩
  · exact .inl ⟨rfl, fun l => by cases l <;> rfl⟩

/-- Settles O42: from `SEQ` BUSY a step makes one event, and from IDLE none but a whole UPDATE's. -/
theorem traceOnlyGrows : Obligations.TraceOnlyGrows := by
  intro s t h
  by_cases hq : s.seq = .idle
  · obtain ⟨htrace, -⟩ | ⟨ha, w, rest, hi, hd⟩ := onlyARefreshMovesTheLines s t hq h
    · exact ⟨[], by rw [htrace, List.append_nil], .inl (Nat.zero_le 1)⟩
    · rw [stepRunsTheDecodedCommand s w rest .update ha hi hd] at h
      exact ⟨_, exec_update_trace (s := { s with inputs := rest }) h, .inr ⟨cycleEvents_length s.ds, w, rest, hi, hd⟩⟩
  · obtain rfl := eq_seqStep_of_busy hq h
    obtain ⟨⟨e, htrace⟩, -⟩ := seqStep_progress (s := s.takePass) (by rwa [takePass_seq])
    exact ⟨[e], by rw [htrace, takePass_trace], .inl le_rfl⟩

end Sys2Proof.Machine
end

section
/-! HOST's byte steps (spec/20_memory.md R46, R50): what one changes, how its command goes on or ends, and that the byte
steps of a command, or an UPDATE's cycle, end where the whole command does. -/

namespace Sys2Proof.Machine

/-! ## One byte step -/

/-- What byte step `i` of `c` may leave: the command goes on to a further byte step that it has, or it has ended with
OK; of the rest of the state only the digit store may differ (R31, R46). -/
inductive ByteStepDone (s : State) (c : Command) (i : Fin 4) : State → Prop
  | goesOn (ds : DigitStore) (h : i.val + 1 < c.byteSteps) :
    ByteStepDone s c i { s with ds := ds, hst := .run c (i + 1) }
  | ends (ds : DigitStore) :
    ByteStepDone s c i { s with ds := ds, hst := .idle, results := s.results ++ [.ok] }

theorem writeInOrder_done (s : State) {c : Command} (i : Fin 4) (o : WriteOrder) (v : Pos → Byte)
    (hc : c.byteSteps = 4) : ByteStepDone s c i (s.writeInOrder c i o v) := by
  unfold State.writeInOrder
  dsimp only
  split
  · next hi => exact .goesOn _ (by omega)
  · exact .ends _

theorem testAndReplace_done (s : State) {c : Command} (i : Fin 4) (old new : Byte) (hc : c.byteSteps = 3) :
    ByteStepDone s c i (s.testAndReplace c i old new) := by
  unfold State.testAndReplace
  dsimp only
  split
  · split
    · next hi => exact .goesOn _ (by omega)
    · exact .ends _
  · exact .ends _

theorem byteStep_done (s : State) (c : Command) (i : Fin 4) : ByteStepDone s c i (byteStep s c i) :=
  match c with
  | .writeNibble _ _ => .ends _
  | .writeWord n => writeInOrder_done s i s.params.wordOrder (fun p => enc (digitAt n p)) rfl
  | .clear => writeInOrder_done s i s.params.clearOrder (fun _ => Config.blank) rfl
  | .showZerosLeft => testAndReplace_done s i _ _ rfl
  | .hideZerosLeft => testAndReplace_done s i _ _ rfl
  | .update => .ends _

/-- With `SEQ` IDLE, a command in progress and no TICK arriving, a step is a byte step of that command; a `pass` is used
up, and a command word waits (R50 (b), R158). -/
theorem step_of_byteStep {s : State} {c : Command} {i : Fin 4} (hq : s.seq = .idle) (hh : s.hst = .run c i)
    (hn : s.inputs.head? ≠ some .tick) : step s = .next (byteStep s.takePass c i) := by
  rw [step_of_host hq (by simp [hh]) hn, hostStep_of_run (by rw [takePass_hst, hh])]

/-- A leading `pass` is used up. -/
theorem takePass_inputs_of_pass {s : State} {rest : List Input} (h : s.inputs = .pass :: rest) :
    s.takePass.inputs = rest := by
  rw [takePass_inputs, h]
  rfl

/-- A command word that has arrived waits. -/
theorem takePass_inputs_of_word {s : State} {w : CommandWord} {rest : List Input}
    (h : s.inputs = .command w :: rest ∨ s.inputs = .commandStepwise w :: rest) : s.takePass.inputs = s.inputs := by
  obtain h | h := h
  · rw [takePass_inputs, h]
    rfl
  · rw [takePass_inputs, h]
    rfl

/-- Settles O34: the step is a byte step of the command in progress. -/
theorem hostStepLeavesAWaitingWord : Obligations.HostStepLeavesAWaitingWord := by
  intro s c i hq hh hn
  have hdone := byteStep_done s.takePass c i
  have hnibble (d : Digit) (p : Pos) (hc : c = .writeNibble d p) : (byteStep s.takePass c i).hst = .idle ∧
      ∀ q : Pos, (byteStep s.takePass c i).ds.get q = if q = p then enc d else s.ds.get q := by
    subst hc
    exact ⟨rfl, fun q => by rw [byteStep, finishCommand_ds, writeDigit_ds, get_set, takePass_ds]⟩
  refine ⟨_, step_of_byteStep hq hh hn, ?_⟩
  generalize byteStep s.takePass c i = t at hdone hnibble
  cases hdone with
  | goesOn ds _ =>
    exact ⟨.inl ⟨rfl, takePass_results s⟩, rfl, fun _ => takePass_inputs_of_pass, fun _ _ => takePass_inputs_of_word,
      rfl, hnibble⟩
  | ends ds =>
    exact ⟨.inr ⟨rfl, by simp only [takePass_results]⟩, rfl, fun _ => takePass_inputs_of_pass,
      fun _ _ => takePass_inputs_of_word, rfl, hnibble⟩

/-! ## A test-and-replace -/

/-- The command goes on where the pattern was replaced and position 1 is not reached, and else has ended with OK
(R46). -/
theorem testAndReplace_eq (s : State) (c : Command) (i : Fin 4) (old new : Byte) :
    s.testAndReplace c i old new =
      { s with
        ds := if s.ds.get (3 - i) = old then s.ds.set (3 - i) new else s.ds
        hst := if s.ds.get (3 - i) = old ∧ i < 2 then .run c (i + 1) else .idle
        results := if s.ds.get (3 - i) = old ∧ i < 2 then s.results else s.results ++ [.ok] } := by
  simp only [State.testAndReplace, holds, cascadePos]
  by_cases hold : s.ds.get (3 - i) = old
  · by_cases hi : i < 2
    · simp only [hold, hi, and_self, if_true]
      rfl
    · simp only [hold, hi, and_false, if_true, if_false]
      rfl
  · simp only [hold, false_and, if_false]
    rfl

/-- The byte step of a cascade is the test-and-replace of its two patterns (R119, R121). -/
theorem byteStep_cascade (s : State) {c : Command} {old new : Byte} (i : Fin 4)
    (hc : c = .showZerosLeft ∧ old = 0xFF#8 ∧ new = 0xC0#8 ∨ c = .hideZerosLeft ∧ old = 0xC0#8 ∧ new = 0xFF#8) :
    byteStep s c i = s.testAndReplace c i old new := by
  obtain ⟨rfl, rfl, rfl⟩ | ⟨rfl, rfl, rfl⟩ := hc
  · rfl
  · rfl

/-- Settles O35: the byte step is a test-and-replace. -/
theorem cascadeByteSteps : Obligations.CascadeByteSteps := by
  intro s c old new i hq hn hh hi hc
  have hstep := step_of_byteStep hq hh hn
  rw [byteStep_cascade s.takePass i hc, testAndReplace_eq, takePass_ds, takePass_results] at hstep
  refine ⟨_, hstep, fun p => ?_, fun hold hlt => ?_, fun hend => ?_, rfl, rfl⟩
  · by_cases hold : s.ds.get (3 - i) = old
    · simp only [if_pos hold, get_set]
      by_cases hp : p = 3 - i
      · simp only [hp, hold, and_self, if_true]
      · simp only [hp, false_and, if_false]
    · simp only [if_neg hold]
      rw [if_neg]
      rintro ⟨rfl, hold'⟩
      exact hold hold'
  · have hgo : s.ds.get (3 - i) = old ∧ i < 2 := ⟨hold, hlt⟩
    simp only [if_pos hgo, and_self]
  · have hstop : ¬ (s.ds.get (3 - i) = old ∧ i < 2) := by
      rintro ⟨hold, hlt⟩
      obtain hne | htwo := hend
      · exact hne hold
      · omega
    simp only [if_neg hstop, and_self]

/-! ## Byte steps in a row -/

/-- HOST's steps with nothing arriving, in a row. -/
theorem runSteps_hostStep (n : Nat) {s : State} (hq : s.seq = .idle) (hi : s.inputs = []) :
    runSteps n s = .next (hostStep^[n] s) := by
  induction n generalizing s with
  | zero => rfl
  | succ n ih =>
    have hstep : step s = .next (hostStep s) := by
      simp only [step, activity, hq, hi, State.takePass]
    have hinputs : (hostStep s).inputs = [] := by
      have h := hostStep_inputs s []
      rw [← hi] at h
      exact (congrArg State.inputs h).trans hi
    rw [runSteps_succ n hstep, ih ((hostStep_moves s).seq.trans hq) hinputs, Function.iterate_succ_apply]


/-- The byte steps of a cascade, with nothing after the one at which it stops, are the cascade (R46). -/
theorem hostStep_cascade (s : State) {c : Command} {old new : Byte}
    (hb : ∀ (t : State) i, byteStep t c i = t.testAndReplace c i old new) :
    hostStep^[4] { s with hst := .run c 0 } = { (s.cascade old new).returnOk with hst := .idle } := by
  have hrest (t : State) (h : t.hst = .idle) : hostStep t = t := by simp only [hostStep, h]
  have hrun (t : State) (i : Fin 4) (h : t.hst = .run c i) : hostStep t = t.testAndReplace c i old new := by
    rw [hostStep_of_run h, hb]
  simp only [State.cascade, DigitStore.cascade, holds, decide_eq_true_eq, State.returnOk]
  by_cases h3 : s.ds.get 3 = old
  · by_cases h2 : s.ds.get 2 = old
    · by_cases h1 : s.ds.get 1 = old
      · simp [hrun, hrest, testAndReplace_eq, h3, h2, h1]
      · simp [hrun, hrest, testAndReplace_eq, h3, h2, h1]
    · simp [hrun, hrest, testAndReplace_eq, h3, h2]
  · simp [hrun, hrest, testAndReplace_eq, h3]

/-- The byte steps of a command other than UPDATE, four at most, end in its outcome with `HST` IDLE (R46). -/
theorem hostStep_four {i : Instr} {c : Command} (s : State) (hc : checkOperands i = .ok c) (hu : c ≠ .update) :
    hostStep^[4] { s with hst := .run c 0 } = { outcomeOf i s with hst := .idle } := by
  simp only [outcomeOf, hc]
  cases c with
  | writeNibble d p => rfl
  | writeWord n => rfl
  | clear => rfl
  | showZerosLeft => exact hostStep_cascade s fun t i => byteStep_cascade t i (.inl ⟨rfl, rfl, rfl⟩)
  | hideZerosLeft => exact hostStep_cascade s fun t i => byteStep_cascade t i (.inr ⟨rfl, rfl, rfl⟩)
  | update => exact absurd rfl hu

/-! ## The whole command, stepwise -/

/-- The refresh cycle of an UPDATE that HOST has begun, and its return (R109, R110). -/
theorem runSteps_update {s : State} (ha : s.accepting) (hi : s.inputs = []) :
    runSteps 200 (beginCommand s .update) = .next (outcomeOf .update s) := by
  obtain ⟨hq, hh⟩ := ha
  have hcycle := runSteps_cycle (s := { s with hst := .run .update 0 }) (by simp [wordsFirst, hi])
  refine hcycle.trans ?_
  rw [refreshCycle_eq, outcome_update, hq, hh]
  rfl

/-- With nothing arriving, 200 steps of a command that has begun end in its outcome, and stay there. -/
theorem runSteps_beginCommand {s : State} (i : Instr) (ha : s.accepting) (hi : s.inputs = []) :
    runSteps 200 (beginCommand s i) = .next (outcomeOf i s) := by
  by_cases hu : i = .update
  · rw [hu, runSteps_update ha hi]
  obtain ⟨hq, hh⟩ := ha
  obtain ⟨hm, hhst⟩ := outcomeOf_moves s hu
  have hrest (n : Nat) : runSteps n (outcomeOf i s) = .next (outcomeOf i s) :=
    runSteps_of_rest ⟨hm.seq.trans hq, hhst.trans hh⟩ ((outcomeOf_store s hu).symm ▸ hi) n
  cases hc : checkOperands i with
  | error f =>
    have hbegin : beginCommand s i = outcomeOf i s := by simp only [beginCommand, outcomeOf, hc]
    rw [hbegin, hrest]
  | ok c =>
    have hcu : c ≠ .update := fun e => checkOperands_ne_update hu (e ▸ hc)
    have hsteps : runSteps 4 (beginCommand s i) = .next (outcomeOf i s) := by
      rw [beginCommand_of_ok s hc hcu, runSteps_hostStep 4 (by exact hq) (by exact hi), hostStep_four s hc hcu,
        ← hh, ← hhst]
    exact (runSteps_add 4 196 hsteps).trans (hrest 196)

/-- A command that begins does not look at what is to arrive. -/
theorem beginCommand_inputs (s : State) (i : Instr) (l : List Input) :
    beginCommand { s with inputs := l } i = { beginCommand s i with inputs := l } := by
  unfold beginCommand
  split <;> rfl

/-- A whole command does not look at what is to arrive. -/
theorem outcomeOf_inputs (s : State) (i : Instr) (l : List Input) :
    outcomeOf i { s with inputs := l } = { outcomeOf i s with inputs := l } := by
  simp only [outcomeOf, refreshCycle_eq]
  split <;> rfl

/-- Settles O33: the run of the command with nothing arriving, past what does arrive. -/
theorem stepwiseCommandsAgreeWithWholeOnes : Obligations.StepwiseCommandsAgreeWithWholeOnes := by
  intro s i rest ha hi hn
  have hstep := step_of_stepwise_ok ha hi (decode_encode i)
  have hquiet := runSteps_beginCommand (s := { s with inputs := [] }) i ha rfl
  rw [beginCommand_inputs s i] at hstep hquiet
  rw [outcomeOf_inputs s i] at hquiet
  obtain ⟨n, hle, hrun⟩ := runSteps_past_inputs (s := { beginCommand s i with inputs := rest }) hquiet hn
  refine ⟨n, _, hle, (runSteps_succ n hstep).trans hrun, ?_⟩
  rw [exec_of_accepting i (by exact ha), outcomeOf_inputs s i]

end Sys2Proof.Machine
end

section
/-! The sequencer's last steps and runs (spec/43_multiplex_refresh.md R109; spec/70_reset_and_hazards.md R171), and the
display while a frame is sent (R117). -/

namespace Sys2Proof.Machine

/-- The latch-high step (R109). -/
theorem seqStep_latchHigh {s : State} {p : Pos} (h : s.seq = .latch p .h) :
    seqStep s = ({ s with latch := .high, trace := s.trace ++ [⟨.latch, true⟩] } : State).afterFrame p := by
  unfold seqStep; rw [h]; rfl

/-- After the last frame the cycle ends (R109). -/
theorem afterFrame_last (s : State) : s.afterFrame 3 = s.endRefresh := rfl

/-- Settles O29, by whether the frame is the last and what command is in progress. -/
theorem latchHighStep : Obligations.LatchHighStep := by
  intro s p hno h
  have hq : s.seq ≠ .idle := by simp [h]
  rw [step_of_busy hq (hno hq), seqStep_latchHigh (by rw [takePass_seq, h]), takePass_trace]
  refine ⟨fun hp => ?_, fun hp => ?_⟩
  · rw [afterFrame_of_lt _ hp, ← takePass_ds s]
    rfl
  · obtain rfl : p = 3 := Fin.ext hp
    rw [afterFrame_last]
    obtain ⟨hend, hne⟩ | ⟨⟨i, hi⟩, hend⟩ :=
      endRefresh_cases { s.takePass with latch := .high, trace := s.trace ++ [⟨.latch, true⟩] }
    · rw [hend]
      exact ⟨fun i hi => absurd ((takePass_hst s).trans hi) (hne i), fun _ => rfl⟩
    · rw [hend]
      exact ⟨fun _ _ => by simp only [takePass_results], fun hne => absurd ((takePass_hst s).symm.trans hi) (hne i)⟩

/-- Settles O31, by the number of steps: each makes one event, and only the last of the cycle leaves `SEQ` IDLE. -/
theorem refreshFinishesInItsTwoHundredSteps : Obligations.RefreshFinishesInItsTwoHundredSteps := by
  intro s n hq hn hle
  induction n generalizing s with
  | zero =>
    have hmade := eventsMade_lt s.seq
    exact ⟨s, rfl, rfl, rfl, iff_of_false hq (by omega)⟩
  | succ n ih =>
    obtain ⟨htick, hrest⟩ := noTickFor_succ hn
    rw [runSteps_succ n (step_of_busy_inputs hq htick), passesUsed_succ n s.inputs]
    obtain ⟨⟨e, he⟩, ⟨hq', hmade⟩ | ⟨hq', hmade⟩⟩ := seqStep_progress hq
    · obtain ⟨t, hrun, htrace, hinputs, hend⟩ :=
        ih { seqStep s with inputs := passesUsed 1 s.inputs } hq' hrest (by simp only; omega)
      refine ⟨t, hrun, ?_, hinputs, hend.trans ?_⟩
      · rw [htrace, he, List.length_append, List.length_singleton, Nat.add_right_comm, Nat.add_assoc]
      · simp only [hmade]
        omega
    · obtain rfl : n = 0 := by omega
      exact ⟨_, rfl, by simp only [he, List.length_append, List.length_singleton], rfl, iff_of_true hq' (by omega)⟩

/-! ## The display -/

/-- Without an event that writes 1 to LATCH the receiver's outputs stay (R115). -/
theorem run_out_of_no_latch (r : Receiver) {es : List PinEvent} (h : ⟨.latch, true⟩ ∉ es) : (r.run es).out = r.out := by
  induction es generalizing r with
  | nil => rfl
  | cons e es ih =>
    rw [List.mem_cons, not_or] at h
    obtain ⟨he, hes⟩ := h
    have hrise : r.wires.rises .latch e = false := by
      refine Bool.eq_false_iff.2 fun hr => he ?_
      simp only [Wires.rises, Bool.and_eq_true, decide_eq_true_eq] at hr
      obtain ⟨⟨hline, hlevel⟩, -⟩ := hr
      rw [← hline, ← hlevel]
    exact (ih (r.after e) hes).trans (by simp only [Receiver.after, hrise, Bool.false_eq_true, if_false])

/-- A transmitted byte makes no event on LATCH (R85). -/
theorem latch_not_mem_pattern (b : Byte) (v : Bool) : ⟨.latch, v⟩ ∉ patternEvents b := by
  simp [patternEvents, bitEvents]

/-- The event that ends a frame is the only one that writes 1 to LATCH (R98). -/
theorem frameEvents_eq_append (b : Byte) (p : Pos) : ∃ es, frameEvents b p = es ++ [⟨.latch, true⟩] ∧
    es.length = 49 ∧ ⟨.latch, true⟩ ∉ es := by
  refine ⟨patternEvents b ++ patternEvents (onehot p) ++ [⟨.latch, false⟩], ?_, rfl, ?_⟩
  · simp [frameEvents, latchEvents]
  · simp [latch_not_mem_pattern]

/-- Settles O40: of a frame only the last event shows anything. -/
theorem displayHoldsUntilTheNextLatchPulse : Obligations.DisplayHoldsUntilTheNextLatchPulse := by
  intro r b p n hn
  obtain ⟨es, hframe, hlen, hmem⟩ := frameEvents_eq_append b p
  rw [hframe, List.take_append_of_le_length (by omega)]
  exact run_out_of_no_latch r fun h => hmem (List.mem_of_mem_take h)

end Sys2Proof.Machine
end

section
/-! The invariant of the block (`State.Inv`): it holds at construction, and the sequencer, HOST, a TICK and whole
commands keep it, part by part: the levels of the lines, the shift byte, the wire protocol and the host state
(spec/10_state.md R19, R25 to R31; spec/43_multiplex_refresh.md R97 to R109). -/

namespace Sys2Proof.Machine

/-! ## The lines and their last events (R27) -/

/-- The last event on a line gives it its level. -/
theorem levelAfter_append (l : Line) (trace : List PinEvent) (e : PinEvent) :
    levelAfter l (trace ++ [e]) = if l = e.line then Level.of e.level else levelAfter l trace := by
  unfold levelAfter
  rw [List.reverse_append, List.reverse_singleton, List.singleton_append, List.find?_cons]
  by_cases h : e.line = l
  · simp [h]
  · simp [h, Ne.symm h]

/-- Lines agree where the levels and the trace are those of a state whose lines agree. -/
theorem State.LinesAgree.of_eq {s t : State} (h : s.LinesAgree) (htrace : t.trace = s.trace)
    (hlevel : ∀ l, t.level l = s.level l) : t.LinesAgree := fun l => by rw [hlevel, htrace, h l]

theorem linesAgree_drive {s : State} (h : s.LinesAgree) (l : Line) (b : Bool) : (s.drive l b).LinesAgree := by
  intro m
  rw [drive_level, drive_trace, levelAfter_append, h m]

/-- Between the pin events of a byte only the shift byte moves. -/
theorem linesAgree_sendBits {s : State} (h : s.LinesAgree) (n : Nat) : (State.sendBits n s).LinesAgree := by
  induction n generalizing s with
  | zero => exact h
  | succ n ih => exact ih (linesAgree_drive (linesAgree_drive (linesAgree_drive h .data _) .shclk false) .shclk true)

theorem linesAgree_sendPattern {s : State} (h : s.LinesAgree) (b : Byte) : (s.sendPattern b).LinesAgree := by
  have hload : (s.loadShift b).LinesAgree := h
  unfold State.sendPattern
  exact linesAgree_sendBits hload 8

theorem linesAgree_sendFrame {s : State} (h : s.LinesAgree) (p : Pos) : (s.sendFrame p).LinesAgree := by
  have hbytes := linesAgree_sendPattern (linesAgree_sendPattern h (s.ds.get p)) (onehot p)
  unfold State.sendFrame State.latchPulse
  exact linesAgree_drive (linesAgree_drive hbytes .latch false) .latch true

theorem linesAgree_refreshCycle {s : State} (h : s.LinesAgree) : s.refreshCycle.LinesAgree := by
  unfold State.refreshCycle
  exact linesAgree_sendFrame (linesAgree_sendFrame (linesAgree_sendFrame (linesAgree_sendFrame h 0) 1) 2) 3

/-! ## What follows a bit or a frame makes no pin event -/

@[simp] theorem afterBit_trace (s : State) (p : Pos) (ph : BytePhase) (k : Fin 8) :
    (s.afterBit p ph k).trace = s.trace := by
  unfold State.afterBit
  split
  · rfl
  · cases ph <;> rfl

@[simp] theorem afterBit_level (s : State) (p : Pos) (ph : BytePhase) (k : Fin 8) (l : Line) :
    (s.afterBit p ph k).level l = s.level l := by
  unfold State.afterBit
  split
  · cases l <;> rfl
  · cases ph <;> cases l <;> rfl

@[simp] theorem endRefresh_trace (s : State) : s.endRefresh.trace = s.trace := by
  obtain ⟨h, -⟩ | ⟨-, h⟩ := endRefresh_cases s <;> rw [h]

@[simp] theorem endRefresh_level (s : State) (l : Line) : s.endRefresh.level l = s.level l := by
  obtain ⟨h, -⟩ | ⟨-, h⟩ := endRefresh_cases s <;> rw [h] <;> cases l <;> rfl

@[simp] theorem afterFrame_trace (s : State) (p : Pos) : (s.afterFrame p).trace = s.trace := by
  unfold State.afterFrame
  split
  · rfl
  · exact endRefresh_trace s

@[simp] theorem afterFrame_level (s : State) (p : Pos) (l : Line) : (s.afterFrame p).level l = s.level l := by
  unfold State.afterFrame
  split
  · cases l <;> rfl
  · exact endRefresh_level s l

/-- A sequencer step is one pin event; the rest of it moves neither the lines nor the trace (R105 to R109). -/
theorem seqStep_drives {s : State} (hq : s.seq ≠ .idle) : ∃ l b, (seqStep s).trace = (s.drive l b).trace ∧
    ∀ m, (seqStep s).level m = (s.drive l b).level m := by
  unfold seqStep
  split
  · contradiction
  · exact ⟨.data, s.sr.bits.msb, rfl, fun m => by cases m <;> rfl⟩
  · exact ⟨.shclk, false, rfl, fun m => by cases m <;> rfl⟩
  · exact ⟨.shclk, true, afterBit_trace .., fun m => (afterBit_level ..).trans (by cases m <;> rfl)⟩
  · exact ⟨.latch, false, rfl, fun m => by cases m <;> rfl⟩
  · exact ⟨.latch, true, afterFrame_trace .., afterFrame_level _ _⟩

theorem linesAgree_seqStep {s : State} (hq : s.seq ≠ .idle) (h : s.LinesAgree) : (seqStep s).LinesAgree := by
  obtain ⟨l, b, htrace, hlevel⟩ := seqStep_drives hq
  exact (linesAgree_drive h l b).of_eq htrace hlevel

/-! ## The shift byte (R25, R26, R87) -/

/-- A byte that is about to be sent is in the shift byte whole. -/
theorem shiftAgrees_beginByte (s : State) (p : Pos) (ph : BytePhase) :
    (s.beginByte p ph (s.sentByte p ph)).ShiftAgrees := by
  cases ph <;> exact congrArg ShiftByte.byte (BitVec.shiftLeft_zero _).symm

/-- After a refresh cycle the shift byte is 0x00. -/
theorem shiftAgrees_of_idle {s : State} (hq : s.seq = .idle) (ht : s.trace ≠ []) (hr : s.sr = .byte 0) :
    s.ShiftAgrees := by
  simp only [State.ShiftAgrees, hq, if_neg ht, hr]

/-- What follows bit `k` of a byte finds the shift byte where it should be. -/
theorem shiftAgrees_afterBit {s : State} {p : Pos} {ph : BytePhase} {k : Fin 8}
    (h : s.sr = .byte (s.sentByte p ph <<< (k.val + 1))) : (s.afterBit p ph k).ShiftAgrees := by
  by_cases hk : k < 7
  · rw [afterBit_of_lt s p ph hk]
    rw [← val_add_one hk] at h
    exact h
  · obtain rfl : k = 7 := by omega
    cases ph with
    | seg => exact shiftAgrees_beginByte s p .stb
    | stb => exact h.trans (congrArg ShiftByte.byte (BitVec.shiftLeft_eq_zero (Nat.le_refl 8)))

/-- What follows a frame, whose last event is in the trace, finds the shift byte where it should be. -/
theorem shiftAgrees_afterFrame {s : State} (p : Pos) (ht : s.trace ≠ []) (h : s.sr = .byte 0) :
    (s.afterFrame p).ShiftAgrees := by
  by_cases hp : p < 3
  · rw [afterFrame_of_lt s hp]
    exact shiftAgrees_beginByte s (p + 1) .seg
  · obtain rfl : p = 3 := Fin.last_le_iff.mp (not_lt.1 hp)
    rw [afterFrame_last]
    obtain ⟨hend, -⟩ | ⟨-, hend⟩ := endRefresh_cases s
    · rw [hend]
      exact shiftAgrees_of_idle rfl ht h
    · rw [hend]
      exact shiftAgrees_of_idle rfl ht h

theorem shiftAgrees_seqStep {s : State} (h : s.ShiftAgrees) : (seqStep s).ShiftAgrees := by
  cases hs : s.seq with
  | idle => simpa only [seqStep, hs] using h
  | shift p ph k sub =>
    have hsr : s.sr = .byte (s.sentByte p ph <<< k.val) := by simpa only [State.ShiftAgrees, hs] using h
    cases sub with
    | d => rw [seqStep_data hs]; exact hsr
    | l => rw [seqStep_clockLow hs]; exact hsr
    | h =>
      rw [seqStep_clockHigh hs]
      refine shiftAgrees_afterBit (congrArg ShiftByte.byte ?_)
      rw [bits_of_byte _ _ hsr, BitVec.shiftLeft_add]
      rfl
  | latch p sub =>
    have hsr : s.sr = .byte 0 := by simpa only [State.ShiftAgrees, hs] using h
    cases sub with
    | l => rw [seqStep_latchLow hs]; exact hsr
    | h =>
      rw [seqStep_latchHigh hs]
      exact shiftAgrees_afterFrame p (by simp) hsr

/-! ## The events of a cycle, by the value of `SEQ` that makes them (R105 to R109) -/

/-- The pin event of the next step of the sequencer: bit `7 - k` of the byte being sent, or a level of SHCLK or
LATCH. -/
def State.nextEvent (s : State) : Option PinEvent :=
  match s.seq with
  | .idle => none
  | .shift p ph k .d => some ⟨.data, (s.sentByte p ph).getLsbD (7 - k)⟩
  | .shift _ _ _ .l => some ⟨.shclk, false⟩
  | .shift _ _ _ .h => some ⟨.shclk, true⟩
  | .latch _ .l => some ⟨.latch, false⟩
  | .latch _ .h => some ⟨.latch, true⟩

/-- The step makes that event, where the shift byte agrees with `SEQ`. -/
theorem seqStep_trace {s : State} (h : s.ShiftAgrees) : (seqStep s).trace = s.trace ++ s.nextEvent.toList := by
  cases hs : s.seq with
  | idle => simp [seqStep, State.nextEvent, hs]
  | shift p ph k sub =>
    cases sub with
    | d =>
      have hsr : s.sr = .byte (s.sentByte p ph <<< k.val) := by simpa only [State.ShiftAgrees, hs] using h
      have htop : (s.sentByte p ph <<< k.val).getLsbD 7 = (s.sentByte p ph).getLsbD (7 - k) := by
        have hk : ¬ 7 < k.val := by omega
        simp only [BitVec.getLsbD_shiftLeft, hk, Nat.reduceLT, decide_true, decide_false, Bool.not_false, Bool.true_and]
      rw [seqStep_data hs, bits_of_byte _ _ hsr, htop]
      simp [State.nextEvent, hs]
    | l => rw [seqStep_clockLow hs]; simp [State.nextEvent, hs]
    | h => rw [seqStep_clockHigh hs, afterBit_trace]; simp [State.nextEvent, hs]
  | latch p sub =>
    cases sub with
    | l => rw [seqStep_latchLow hs]; simp [State.nextEvent, hs]
    | h => rw [seqStep_latchHigh hs, afterFrame_trace]; simp [State.nextEvent, hs]

theorem getElem?_append_add {a b : List PinEvent} {n : Nat} (h : a.length = n) (j : Nat) :
    (a ++ b)[n + j]? = b[j]? := by
  rw [← h, List.getElem?_append_right (Nat.le_add_right ..), Nat.add_sub_cancel_left]

/-- In blocks of `n` events, event `j` of block `i` stands at `n i + j`. -/
theorem getElem?_flatMap {α : Type} {f : α → List PinEvent} {n : Nat} (hf : ∀ a, (f a).length = n) {l : List α}
    {i j : Nat} {a : α} (hi : l[i]? = some a) (hj : j < n) : (l.flatMap f)[n * i + j]? = (f a)[j]? := by
  induction l generalizing i with
  | nil => exact nomatch hi
  | cons x xs ih =>
    rw [List.flatMap_cons]
    cases i with
    | zero =>
      obtain rfl : x = a := Option.some.inj hi
      rw [Nat.mul_zero, Nat.zero_add, List.getElem?_append_left (by rwa [hf])]
    | succ i =>
      rw [Nat.mul_succ, Nat.add_comm _ n, Nat.add_assoc, getElem?_append_add (hf x)]
      exact ih hi

/-- The three events of bit `7 - k` of a byte stand from 3 `k` on (R85). -/
theorem patternEvents_getElem? (b : Byte) (k : Fin 8) {j : Nat} (hj : j < 3) :
    (patternEvents b)[3 * k.val + j]? = (bitEvents (b.getLsbD (7 - k)))[j]? := by
  have hbit : ([7, 6, 5, 4, 3, 2, 1, 0] : List Nat)[k.val]? = some (7 - k.val) := by fin_cases k <;> rfl
  exact getElem?_flatMap (f := fun i => bitEvents (b.getLsbD i)) (fun _ => rfl) hbit hj

/-- The events of frame `p` stand in the cycle from 50 `p` on (R22, R97). -/
theorem cycleEvents_getElem? (ds : DigitStore) (p : Pos) {j : Nat} (hj : j < 50) :
    (cycleEvents ds)[50 * p.val + j]? = (frameEvents (ds.get p) p)[j]? := by
  have hpos : ([0, 1, 2, 3] : List Pos)[p.val]? = some p := by fin_cases p <;> rfl
  rw [cycleEvents_eq_flatMap]
  exact getElem?_flatMap (f := fun q => frameEvents (ds.get q) q) (fun q => frameEvents_length _ q) hpos hj

/-- The events of a byte stand in the cycle from where `SEQ` begins it (R22, R98). -/
theorem cycleEvents_byte_getElem? (s : State) (p : Pos) (ph : BytePhase) {j : Nat} (hj : j < 24) :
    (cycleEvents s.ds)[(SeqState.shift p ph 0 .d).eventsMade + j]? = (patternEvents (s.sentByte p ph))[j]? := by
  have hone (b : Byte) : j < (patternEvents b).length := by rwa [patternEvents_length]
  cases ph with
  | seg =>
    have hmade : (SeqState.shift p .seg 0 .d).eventsMade + j = 50 * p.val + j := rfl
    rw [hmade, cycleEvents_getElem? s.ds p (by omega), frameEvents, List.append_assoc,
      List.getElem?_append_left (hone _)]
    rfl
  | stb =>
    have hmade : (SeqState.shift p .stb 0 .d).eventsMade + j = 50 * p.val + (24 + j) :=
      Nat.add_assoc (50 * p.val) 24 j
    rw [hmade, cycleEvents_getElem? s.ds p (by omega), frameEvents, List.append_assoc,
      getElem?_append_add (patternEvents_length _), List.getElem?_append_left (hone _)]
    rfl

/-- The events of a latch pulse stand in the cycle from where `SEQ` begins it (R22, R98). -/
theorem cycleEvents_latch_getElem? (ds : DigitStore) (p : Pos) {j : Nat} (hj : j < 2) :
    (cycleEvents ds)[(SeqState.latch p .l).eventsMade + j]? = latchEvents[j]? := by
  have hmade : (SeqState.latch p .l).eventsMade + j = 50 * p.val + (48 + j) := Nat.add_assoc (50 * p.val) 48 j
  rw [hmade, cycleEvents_getElem? ds p (by omega), frameEvents]
  exact getElem?_append_add (by simp only [List.length_append, patternEvents_length]) j

/-- The event that the next step makes is the one at which `SEQ` stands in the cycle. -/
theorem nextEvent_eq {s : State} (hq : s.seq ≠ .idle) : s.nextEvent = (cycleEvents s.ds)[s.seq.eventsMade]? := by
  cases hs : s.seq with
  | idle => exact absurd hs hq
  | shift p ph k sub =>
    have hbit {j : Nat} (hj : j < 3) : (cycleEvents s.ds)[(SeqState.shift p ph k .d).eventsMade + j]? =
        (bitEvents ((s.sentByte p ph).getLsbD (7 - k)))[j]? := by
      have hmade : (SeqState.shift p ph k .d).eventsMade + j =
          (SeqState.shift p ph 0 .d).eventsMade + (3 * k.val + j) := Nat.add_assoc _ (3 * k.val) j
      rw [hmade, cycleEvents_byte_getElem? s p ph (by omega), patternEvents_getElem? _ k hj]
    simp only [State.nextEvent, hs]
    cases sub with
    | d => exact (hbit (j := 0) (by decide)).symm
    | l => exact (hbit (j := 1) (by decide)).symm
    | h => exact (hbit (j := 2) (by decide)).symm
  | latch p sub =>
    simp only [State.nextEvent, hs]
    cases sub with
    | l => exact (cycleEvents_latch_getElem? s.ds p (j := 0) (by decide)).symm
    | h => exact (cycleEvents_latch_getElem? s.ds p (j := 1) (by decide)).symm

/-! ## The wire protocol (R30, R97, R101) -/

/-- Where no event of a cycle has been made yet, the trace is whole cycles. -/
theorem wireProtocol_iff {s : State} (hq : s.seq.eventsMade = 0) :
    s.WireProtocol ↔ ∃ shown : List DigitStore, (∀ ds ∈ shown, ds.Legal) ∧ s.trace = shown.flatMap cycleEvents := by
  simp only [State.WireProtocol, hq, List.take_zero, List.append_nil]

/-- A cycle over a legal store that has been made whole is one more that has been shown. -/
theorem wireProtocol_of_cycle {s t : State} {shown : List DigitStore} (hq : t.seq.eventsMade = 0)
    (hshown : ∀ ds ∈ shown, ds.Legal) (hds : s.ds.Legal)
    (ht : t.trace = shown.flatMap cycleEvents ++ cycleEvents s.ds) : t.WireProtocol := by
  refine (wireProtocol_iff hq).2 ⟨shown ++ [s.ds], fun ds hmem => ?_, by rw [ht, List.flatMap_append,
    List.flatMap_singleton]⟩
  obtain hmem | hmem := List.mem_append.1 hmem
  · exact hshown ds hmem
  · exact List.mem_singleton.1 hmem ▸ hds

/-- A sequencer step goes on to the next event of the cycle, or ends it whole. -/
theorem wireProtocol_seqStep {s : State} (hq : s.seq ≠ .idle) (hds : s.ds.Legal) (hr : s.ShiftAgrees)
    (h : s.WireProtocol) : (seqStep s).WireProtocol := by
  obtain ⟨shown, hshown, htrace⟩ := h
  have hnext : (seqStep s).trace = shown.flatMap cycleEvents ++ (cycleEvents s.ds).take (s.seq.eventsMade + 1) := by
    rw [seqStep_trace hr, htrace, nextEvent_eq hq, List.append_assoc, List.take_add_one]
  obtain ⟨-, ⟨-, hmade⟩ | ⟨hidle, hmade⟩⟩ := seqStep_progress hq
  · obtain ⟨hstore, -⟩ := seqStep_frame s
    exact ⟨shown, hshown, by rw [hnext, hmade, hstore]⟩
  · rw [hmade, List.take_of_length_le (cycleEvents_length s.ds).le] at hnext
    exact wireProtocol_of_cycle (by rw [hidle]; rfl) hshown hds hnext

/-! ## The host state (R31) -/

theorem hostAgrees_of_idle {s : State} (h : s.hst = .idle) : s.HostAgrees := by
  simp only [State.HostAgrees, h]

/-- A byte step that its command has. An UPDATE has none. -/
theorem hostAgrees_of_lt {s : State} {c : Command} {i : Fin 4} (h : s.hst = .run c i) (hi : i.val < c.byteSteps) :
    s.HostAgrees := by
  simp only [State.HostAgrees, h]
  cases c with
  | update => exact absurd hi (Nat.not_lt_zero _)
  | _ => exact hi

/-- A host state that agreed goes on to agree, unless `SEQ` is IDLE with an UPDATE in progress (log 6). -/
theorem State.HostAgrees.of_hst_eq {s t : State} (h : s.HostAgrees) (hh : t.hst = s.hst)
    (hu : t.seq = .idle → ∀ i, t.hst ≠ .run .update i) : t.HostAgrees := by
  cases hs : s.hst with
  | idle => exact hostAgrees_of_idle (hh.trans hs)
  | run c i =>
    rw [hs] at hh
    cases c with
    | update =>
      simp only [State.HostAgrees, hh]
      exact fun hq => hu hq i hh
    | _ =>
      simp only [State.HostAgrees, hs] at h
      exact hostAgrees_of_lt hh h

/-- The last event of a cycle is the latch-high step's of frame 3 (R22). -/
theorem eq_latch_of_eventsMade {q : SeqState} (h : q.eventsMade = 199) : q = .latch 3 .h := by
  cases q with
  | idle => exact nomatch h
  | shift p ph k sub => cases ph <;> cases sub <;> simp only [SeqState.eventsMade] at h <;> omega
  | latch p sub =>
    have hp := p.isLt
    cases sub with
    | l => simp only [SeqState.eventsMade] at h; omega
    | h =>
      simp only [SeqState.eventsMade] at h
      obtain rfl : p = 3 := Fin.ext (by show p.val = 3; omega)
      rfl

/-- A cycle that ends leaves no UPDATE in progress (R109; log 6). -/
theorem seqStep_ends_update {s : State} (hq : s.seq ≠ .idle) (hend : (seqStep s).seq = .idle) (i : Fin 4) :
    (seqStep s).hst ≠ .run .update i := by
  obtain ⟨-, ⟨hne, -⟩ | ⟨-, hmade⟩⟩ := seqStep_progress hq
  · exact absurd hend hne
  · rw [seqStep_latchHigh (eq_latch_of_eventsMade hmade), afterFrame_last]
    obtain ⟨h, hne⟩ | ⟨-, h⟩ :=
      endRefresh_cases { s with latch := .high, trace := s.trace ++ [⟨.latch, true⟩] }
    · rw [h]
      exact hne i
    · rw [h]
      exact nofun

theorem hostAgrees_seqStep {s : State} (hq : s.seq ≠ .idle) (h : s.HostAgrees) : (seqStep s).HostAgrees := by
  obtain ⟨-, -, -, -, ⟨hhst, -⟩ | ⟨-, -, hidle, -⟩⟩ := seqStep_frame s
  · exact h.of_hst_eq hhst (seqStep_ends_update hq)
  · exact hostAgrees_of_idle hidle

theorem hostAgrees_byteStep (s : State) (c : Command) (i : Fin 4) : (byteStep s c i).HostAgrees := by
  have hdone := byteStep_done s c i
  generalize byteStep s c i = t at hdone
  cases hdone with
  | goesOn ds h =>
    have hi : i.val < 3 := by cases c <;> simp only [Command.byteSteps] at h <;> omega
    exact hostAgrees_of_lt rfl (by rwa [val_add_one hi])
  | ends ds => exact hostAgrees_of_idle rfl

/-- A command has a first byte step, but UPDATE (R46). -/
theorem byteSteps_pos {c : Command} (h : c ≠ .update) : 0 < c.byteSteps := by
  cases c with
  | update => exact absurd rfl h
  | _ => exact Nat.succ_pos _

/-! ## The invariant -/

/-- The invariant does not look at what is to arrive. -/
theorem inv_inputs {s : State} (h : s.Inv) (l : List Input) : ({ s with inputs := l } : State).Inv :=
  ⟨h.dsLegal, h.hostAgrees, h.shiftAgrees, h.linesAgree, h.wireProtocol, h.pinsAreOutputs⟩

theorem inv_takePass {s : State} (h : s.Inv) : s.takePass.Inv := takePass_eq s ▸ inv_inputs h _

/-- Settles O2: nothing has been driven, shifted or begun. -/
theorem blockInvariantHoldsAtReset : Obligations.BlockInvariantHoldsAtReset := fun a b c =>
  { dsLegal := legal_construct a b c
    hostAgrees := hostAgrees_of_idle rfl
    shiftAgrees := rfl
    linesAgree := construct_level a b c
    wireProtocol := (wireProtocol_iff rfl).2 ⟨[], nofun, rfl⟩
    pinsAreOutputs := ⟨rfl, rfl, rfl⟩ }

/-- A sequencer step keeps the invariant (R105 to R109). -/
theorem inv_seqStep {s : State} (hq : s.seq ≠ .idle) (h : s.Inv) : (seqStep s).Inv := by
  obtain ⟨hds, hcfg, -⟩ := seqStep_frame s
  exact
    { dsLegal := hds.symm ▸ h.dsLegal
      hostAgrees := hostAgrees_seqStep hq h.hostAgrees
      shiftAgrees := shiftAgrees_seqStep h.shiftAgrees
      linesAgree := linesAgree_seqStep hq h.linesAgree
      wireProtocol := wireProtocol_seqStep hq h.dsLegal h.shiftAgrees h.wireProtocol
      pinsAreOutputs := by
        unfold State.PinsAreOutputs
        rw [hcfg]
        exact h.pinsAreOutputs }

/-- Whatever moves HOST alone while `SEQ` is IDLE keeps the invariant, if it keeps the patterns legal and leaves a host
state that agrees. -/
theorem inv_of_onlyHostMoved {s t : State} (hq : s.seq = .idle) (h : s.Inv) (hm : OnlyHostMoved s t)
    (hds : t.ds.Legal) (hhost : t.HostAgrees) : t.Inv where
  dsLegal := hds
  hostAgrees := hhost
  shiftAgrees := by
    have hr := h.shiftAgrees
    simp only [State.ShiftAgrees, hm.seq, hm.sr, hm.trace, hq] at hr ⊢
    exact hr
  linesAgree := h.linesAgree.of_eq hm.trace hm.level
  wireProtocol := by
    rw [wireProtocol_iff (by rw [hm.seq, hq]; rfl), hm.trace]
    exact (wireProtocol_iff (by rw [hq]; rfl)).1 h.wireProtocol
  pinsAreOutputs := by
    unfold State.PinsAreOutputs
    rw [hm.cfg]
    exact h.pinsAreOutputs

/-- The start step keeps the invariant, of a TICK and of an UPDATE that HOST begins (R104, R145). -/
theorem inv_startRefresh {s : State} (hq : s.seq = .idle) (h : s.Inv) (hst : HostState)
    (hhost : ({ s with hst := hst } : State).startRefresh.HostAgrees) :
    ({ s with hst := hst } : State).startRefresh.Inv where
  dsLegal := h.dsLegal
  hostAgrees := hhost
  shiftAgrees := shiftAgrees_beginByte { s with hst := hst } 0 .seg
  linesAgree := h.linesAgree
  wireProtocol := (wireProtocol_iff rfl).2 ((wireProtocol_iff (s := s) (by rw [hq]; rfl)).1 h.wireProtocol)
  pinsAreOutputs := h.pinsAreOutputs

/-- HOST's step keeps the invariant (R46). -/
theorem inv_hostStep {s : State} (hq : s.seq = .idle) (h : s.Inv) : (hostStep s).Inv := by
  refine inv_of_onlyHostMoved hq h (hostStep_moves s) (legal_hostStep h.dsLegal) ?_
  cases hs : s.hst with
  | idle => simpa only [hostStep, hs] using h.hostAgrees
  | run c i => exact hostStep_of_run hs ▸ hostAgrees_byteStep s c i

/-- A fault leaves its result code alone, and so keeps the invariant (R137). -/
theorem inv_raiseFault {s : State} (h : s.Inv) (f : CommandFault) : (s.raiseFault f).Inv :=
  ⟨h.dsLegal, h.hostAgrees, h.shiftAgrees, h.linesAgree, h.wireProtocol, h.pinsAreOutputs⟩

/-- The beginning of a command keeps the invariant (R31, R46, R104). -/
theorem inv_beginCommand {s : State} (ha : s.accepting) (h : s.Inv) (i : Instr) : (beginCommand s i).Inv := by
  obtain ⟨hq, hh⟩ := ha
  cases hc : checkOperands i with
  | error f =>
    simp only [beginCommand, hc]
    exact inv_raiseFault h f
  | ok c =>
    by_cases hu : c = .update
    · subst hu
      simp only [beginCommand, hc]
      exact inv_startRefresh hq h _ nofun
    · rw [beginCommand_of_ok s hc hu]
      exact inv_of_onlyHostMoved hq h ⟨rfl, rfl, rfl, rfl, rfl, rfl, rfl, rfl⟩ h.dsLegal
        (hostAgrees_of_lt rfl (byteSteps_pos hu))

theorem inv_beginWord {s : State} (ha : s.accepting) (h : s.Inv) (w : CommandWord) : (beginWord s w).Inv := by
  unfold beginWord
  split
  · exact inv_beginCommand ha h _
  · exact inv_raiseFault h _

/-- A whole UPDATE keeps the invariant: it adds a cycle over the present store (R97). -/
theorem inv_refreshCycle {s : State} (ha : s.accepting) (h : s.Inv) : s.refreshCycle.returnOk.Inv := by
  obtain ⟨hq, hh⟩ := ha
  have hlines := linesAgree_refreshCycle h.linesAgree
  obtain ⟨shown, hshown, htrace⟩ := (wireProtocol_iff (by rw [hq]; rfl)).1 h.wireProtocol
  rw [refreshCycle_eq] at hlines ⊢
  have hmade : s.trace ++ cycleEvents s.ds ≠ [] := fun hnil => by
    have hlen := congrArg List.length (List.append_eq_nil_iff.1 hnil).2
    rw [cycleEvents_length] at hlen
    exact nomatch hlen
  exact
    { dsLegal := h.dsLegal
      hostAgrees := hostAgrees_of_idle hh
      shiftAgrees := shiftAgrees_of_idle hq hmade rfl
      linesAgree := hlines
      wireProtocol := wireProtocol_of_cycle (by rw [returnOk_seq, hq]; rfl) hshown h.dsLegal
        (congrArg (· ++ cycleEvents s.ds) htrace)
      pinsAreOutputs := h.pinsAreOutputs }

/-- A whole command keeps the invariant. -/
theorem inv_outcomeOf {s : State} (ha : s.accepting) (h : s.Inv) (i : Instr) : (outcomeOf i s).Inv := by
  by_cases hu : i = .update
  · subst hu
    exact inv_refreshCycle ha h
  · obtain ⟨hq, hh⟩ := ha
    obtain ⟨hm, hhst⟩ := outcomeOf_moves s hu
    exact inv_of_onlyHostMoved hq h hm (legal_outcomeOf h.dsLegal i) (hostAgrees_of_idle (hhst.trans hh))

/-- Settles O50, by the agent that moves. -/
theorem everyStepKeepsTheBlockInvariant : Obligations.EveryStepKeepsTheBlockInvariant := by
  intro s t h hst
  obtain ⟨hq, -, rfl⟩ | ⟨hq, rest, -, rfl⟩ | ⟨hq, rfl⟩ | ⟨ha, w, rest, -, rfl⟩ | ⟨ha, w, rest, i, -, -, rfl⟩ |
    ⟨-, w, rest, e, -, -, rfl⟩ := step_cases hst
  · exact inv_seqStep (by rwa [takePass_seq]) (inv_takePass h)
  · exact inv_startRefresh (s := { s with inputs := rest }) hq (inv_inputs h rest) s.hst
      (h.hostAgrees.of_hst_eq rfl nofun)
  · exact inv_hostStep (by rwa [takePass_seq]) (inv_takePass h)
  · exact inv_beginWord (by exact ha) (inv_inputs h rest) w
  · exact inv_outcomeOf (by exact ha) (inv_inputs h rest) i
  · exact inv_raiseFault (inv_inputs h rest) _

end Sys2Proof.Machine
end
